-- ==== Sys2Proof/Word.lean ====
section
/-! DEFINITION. The words of the block: operands, event words, command words, bytes (spec/00_scope.md R7, R9, R10). -/

namespace Sys2Proof

/-- CYCW = ARGW = 64: the cycle counter, every due cycle and every operand (R7, decision D2). -/
abbrev U64 := BitVec 64

/-- EVW = 16: an event word (R7, decision D8). -/
abbrev EventWord := BitVec 16

/-- CMDW = 32: a command word (R7, decision D9). -/
abbrev CmdWord := BitVec 32

/-- A byte, met only where a word is serialised (R52). -/
abbrev Byte := BitVec 8

end Sys2Proof
end

