-- ==== Sys2Proof/Config.lean ====
section
/-! DEFINITION. The implementation parameters of the block with the values this hardware takes (spec/00_scope.md R7, R8). -/

namespace Sys2Proof

/-- N_CTRL = 2 controller ids (R7, decision D7). -/
abbrev ControllerId := Fin 2

/-- N_DMA = 4 DMA channels per controller (R7; the spec's general knowledge G1, assumption 9). -/
abbrev DmaIndex := Fin 4

/-- N_TMR = 4 timers per controller (R7; G2, assumption 9). -/
abbrev TimerIndex := Fin 4

/-- N_GEN = 8 general-purpose audio channel slots (R7; G3, assumption 9). -/
abbrev GeneralSlot := Fin 8

/-- N_TONE = 6 tone/PSG audio channel slots (R7; G3, assumption 9). -/
abbrev ToneSlot := Fin 6

/-- N_NOISE = 2 noise audio channel slots (R7; G3, assumption 9). -/
abbrev NoiseSlot := Fin 2

/-- A slot index: the ordinal of an event value, `0 .. NUM_EVENTS-1` (R11). NUM_EVENTS = 55 is the sum R8 makes of the
counts above (`Laws.numEvents_formula`). -/
abbrev SlotIndex := Fin 55

/-- A tie-break: which of the entries that share the least due cycle, listed with ascending ordinals, is the head.
R126 allows any function of that set which picks one of its members. -/
abbrev TiePolicy := List SlotIndex → Option SlotIndex

/-- What R126 asks of a tie-break: it picks a member of every set that has one. -/
def TiePolicy.Consistent (tie : TiePolicy) : Prop :=
  ∀ candidates : List SlotIndex, candidates ≠ [] → ∃ i ∈ candidates, tie candidates = some i

/-- The OPEN parameters of the environment (R7, decision D22): each a positive number of cycles that the document does
not give, so an argument of the environment model and never a number here (assumption 11). -/
structure Periods where
  /-- LINE_PERIOD: cycles from one scanline boundary to the next (R156). -/
  line : U64
  /-- HBLANK_OFFSET: offset of the horizontal blank within a line (R157). -/
  hBlankOffset : U64
  /-- SAMPLE_PERIOD: cycles from one heartbeat to the next (R161). -/
  sample : U64
  /-- BOOT_DELAY_SAMPLE (R224). -/
  bootSample : U64
  /-- BOOT_DELAY_LINE (R224). -/
  bootLine : U64
  /-- BOOT_DELAY_HBLANK (R224). -/
  bootHBlank : U64
  deriving DecidableEq, Repr

/-- Every period and every boot delay is strictly positive (decision D22). -/
abbrev Periods.Positive (p : Periods) : Prop :=
  0 < p.line ∧ 0 < p.hBlankOffset ∧ 0 < p.sample ∧ 0 < p.bootSample ∧ 0 < p.bootLine ∧ 0 < p.bootHBlank

end Sys2Proof
end

