-- ==== Sys2Proof/Syntax.lean ====
section
/-! DEFINITION. Events (spec/00_scope.md R14, spec/30_encoding.md R71, R72) and the six commands of spec/opcode_table.json
(spec/30_encoding.md R79). -/

namespace Sys2Proof

/-- The ten event kinds, in the document's order (R71). -/
inductive EventKind where
  | dma
  | startNextLine
  | hBlank
  | vBlank
  | timerOverflow
  | cartridgeWordTransferred
  | cartridgeBlockEnded
  | generateAudioSample
  | stepAudioChannel
  | resetAudioChannel
  deriving DecidableEq, Repr

/-- A `channel_spec`: an audio kind and a slot index within that kind (R72). -/
inductive ChannelSpec where
  /-- A general-purpose channel. -/
  | general (slot : GeneralSlot)
  /-- A tone/PSG channel. -/
  | tone (slot : ToneSlot)
  /-- A noise channel. -/
  | noise (slot : NoiseSlot)
  deriving DecidableEq, Repr

/-- An event value: a kind and a small integer payload, compared by value (R14). Its payloads are in range by their
types, so exactly the 55 values of R74 exist. -/
inductive Event where
  | dma (controller : ControllerId) (channel : DmaIndex)
  | startNextLine
  | hBlank
  | vBlank
  | timerOverflow (controller : ControllerId) (timer : TimerIndex)
  | cartridgeWordTransferred
  | cartridgeBlockEnded (controller : ControllerId)
  | generateAudioSample
  | stepAudioChannel (channel : ChannelSpec)
  | resetAudioChannel (channel : ChannelSpec)
  deriving DecidableEq, Repr

/-- A decoded command. The three event-taking commands carry the raw 16-bit EV field: whether it is a legal event word
is tested when the command is accepted (R81 step 3), and an illegal one is recorded with the fault (R186). Every
command carries its whole ARG: CANCEL and RUN_NOW record it when their event word is illegal, DONE ignores it (R78). -/
inductive Instr where
  /-- `SCHEDULE <event>, <delay>` (R101). -/
  | schedule (ev : EventWord) (delay : U64)
  /-- `CANCEL <event>` (R102). -/
  | cancel (ev : EventWord) (arg : U64)
  /-- `RUN_NOW <event>` (R103). -/
  | runNow (ev : EventWord) (arg : U64)
  /-- `ADVANCE <n>` (R121, R122). -/
  | advance (n : U64)
  /-- `DONE` (R124). -/
  | done (arg : U64)
  /-- `ABORT <info>` (R125). -/
  | abort (info : U64)
  deriving DecidableEq, Repr

/-- What a requester presents on the command port: a command word and its operand (R32, R77). -/
structure Request where
  cmd : CmdWord
  arg : U64
  deriving DecidableEq, Repr

end Sys2Proof
end

