-- ==== Sys2Proof/Machine/Events.lean ====
section
/-! DEFINITION. Event words, their legality, and the map between event values and slot ordinals
(spec/30_encoding.md R70 to R76). -/

namespace Sys2Proof

/-- The KIND field, bits 15:12 (R70). -/
def EventWord.kindField (w : EventWord) : BitVec 4 := w.extractLsb' 12 4

/-- The reserved field, bits 11:8 (R70). -/
def EventWord.rsvField (w : EventWord) : BitVec 4 := w.extractLsb' 8 4

/-- The first payload field, bits 7:4 (R70). -/
def EventWord.aField (w : EventWord) : BitVec 4 := w.extractLsb' 4 4

/-- The second payload field, bits 3:0 (R70). -/
def EventWord.bField (w : EventWord) : BitVec 4 := w.extractLsb' 0 4

/-- The KIND number of an event kind (R71). -/
def EventKind.code : EventKind → BitVec 4
  | .dma => 0
  | .startNextLine => 1
  | .hBlank => 2
  | .vBlank => 3
  | .timerOverflow => 4
  | .cartridgeWordTransferred => 5
  | .cartridgeBlockEnded => 6
  | .generateAudioSample => 7
  | .stepAudioChannel => 8
  | .resetAudioChannel => 9

/-- The kind of an event value (R71). -/
def Event.kind : Event → EventKind
  | .dma _ _ => .dma
  | .startNextLine => .startNextLine
  | .hBlank => .hBlank
  | .vBlank => .vBlank
  | .timerOverflow _ _ => .timerOverflow
  | .cartridgeWordTransferred => .cartridgeWordTransferred
  | .cartridgeBlockEnded _ => .cartridgeBlockEnded
  | .generateAudioSample => .generateAudioSample
  | .stepAudioChannel _ => .stepAudioChannel
  | .resetAudioChannel _ => .resetAudioChannel

/-- Field A of a `channel_spec`: 0 General, 1 Tone, 2 Noise (R72). -/
def ChannelSpec.kindCode : ChannelSpec → BitVec 4
  | .general _ => 0
  | .tone _ => 1
  | .noise _ => 2

/-- The slot index of a `channel_spec` within its kind (R72). -/
def ChannelSpec.slotIndex : ChannelSpec → Nat
  | .general j => j
  | .tone j => j
  | .noise j => j

/-- Field A of an event's word: a controller id, an audio kind, or 0 (R71). -/
def Event.aField : Event → BitVec 4
  | .dma c _ => BitVec.ofNat 4 c
  | .timerOverflow c _ => BitVec.ofNat 4 c
  | .cartridgeBlockEnded c => BitVec.ofNat 4 c
  | .stepAudioChannel ch => ch.kindCode
  | .resetAudioChannel ch => ch.kindCode
  | .startNextLine => 0
  | .hBlank => 0
  | .vBlank => 0
  | .cartridgeWordTransferred => 0
  | .generateAudioSample => 0

/-- Field B of an event's word: a channel, timer or slot index, or 0 (R71). -/
def Event.bField : Event → BitVec 4
  | .dma _ i => BitVec.ofNat 4 i
  | .timerOverflow _ t => BitVec.ofNat 4 t
  | .stepAudioChannel ch => BitVec.ofNat 4 ch.slotIndex
  | .resetAudioChannel ch => BitVec.ofNat 4 ch.slotIndex
  | .cartridgeBlockEnded _ => 0
  | .startNextLine => 0
  | .hBlank => 0
  | .vBlank => 0
  | .cartridgeWordTransferred => 0
  | .generateAudioSample => 0

/-- The event word of an event value: KIND, a zero reserved field, A, B (R70). -/
def Event.word (e : Event) : EventWord :=
  e.kind.code ++ (0 : BitVec 4) ++ e.aField ++ e.bField

/-- A payload field read as an index below `n`; out of range it names nothing (R72). -/
def indexBelow (n : Nat) (field : BitVec 4) : Option (Fin n) :=
  if h : field.toNat < n then some ⟨field.toNat, h⟩ else none

/-- The `channel_spec` in fields A and B (R72, R73). -/
def ChannelSpec.ofFields (a b : BitVec 4) : Option ChannelSpec :=
  match a.toNat with
  | 0 => (indexBelow 8 b).map .general
  | 1 => (indexBelow 6 b).map .tone
  | 2 => (indexBelow 2 b).map .noise
  | _ => none

/-- `e` if both payload fields are zero, as a kind without payload asks (R73). -/
def ifNoPayload (a b : BitVec 4) (e : Event) : Option Event :=
  if a = 0 ∧ b = 0 then some e else none

/-- The event value of a legal event word, nothing for an illegal one (R71, R73, R83). -/
def Event.ofWord (w : EventWord) : Option Event :=
  if w.rsvField = 0 then
    match w.kindField.toNat with
    | 0 => (indexBelow 2 w.aField).bind fun c => (indexBelow 4 w.bField).map (.dma c)
    | 1 => ifNoPayload w.aField w.bField .startNextLine
    | 2 => ifNoPayload w.aField w.bField .hBlank
    | 3 => ifNoPayload w.aField w.bField .vBlank
    | 4 => (indexBelow 2 w.aField).bind fun c => (indexBelow 4 w.bField).map (.timerOverflow c)
    | 5 => ifNoPayload w.aField w.bField .cartridgeWordTransferred
    | 6 => if w.bField = 0 then (indexBelow 2 w.aField).map .cartridgeBlockEnded else none
    | 7 => ifNoPayload w.aField w.bField .generateAudioSample
    | 8 => (ChannelSpec.ofFields w.aField w.bField).map .stepAudioChannel
    | 9 => (ChannelSpec.ofFields w.aField w.bField).map .resetAudioChannel
    | _ => none
  else none

/-- Legal (canonical) event words, condition by condition as R73 tabulates them. It is written apart from
`Event.ofWord`; `Laws.legal_eq_isSome` says the two agree on all 65536 words. -/
def EventWord.legal (w : EventWord) : Bool :=
  let a := w.aField.toNat
  let b := w.bField.toNat
  w.rsvField == 0 &&
    match w.kindField.toNat with
    | 0 => a ≤ 1 && b ≤ 3
    | 1 => a == 0 && b == 0
    | 2 => a == 0 && b == 0
    | 3 => a == 0 && b == 0
    | 4 => a ≤ 1 && b ≤ 3
    | 5 => a == 0 && b == 0
    | 6 => a ≤ 1 && b == 0
    | 7 => a == 0 && b == 0
    | 8 => (a == 0 && b ≤ 7) || (a == 1 && b ≤ 5) || (a == 2 && b ≤ 1)
    | 9 => (a == 0 && b ≤ 7) || (a == 1 && b ≤ 5) || (a == 2 && b ≤ 1)
    | _ => false

/-- The offset of an audio channel among the sixteen of its event kind: `aoff(k) + j` (R75). -/
def ChannelSpec.offset : ChannelSpec → Fin 16
  | .general j => ⟨j, by omega⟩
  | .tone j => ⟨8 + j, by omega⟩
  | .noise j => ⟨14 + j, by omega⟩

/-- `ord(e)`: the slot of an event value, in R75's closed form. -/
def Event.ord : Event → SlotIndex
  | .dma c i => ⟨4 * c + i, by omega⟩
  | .startNextLine => 8
  | .hBlank => 9
  | .vBlank => 10
  | .timerOverflow c t => ⟨11 + 4 * c + t, by omega⟩
  | .cartridgeWordTransferred => 19
  | .cartridgeBlockEnded c => ⟨20 + c, by omega⟩
  | .generateAudioSample => 22
  | .stepAudioChannel ch => ⟨23 + ch.offset, by omega⟩
  | .resetAudioChannel ch => ⟨39 + ch.offset, by omega⟩

/-- The sixteen audio channels in the order of R74. -/
def ChannelSpec.all : List ChannelSpec :=
  [.general 0, .general 1, .general 2, .general 3, .general 4, .general 5, .general 6, .general 7,
    .tone 0, .tone 1, .tone 2, .tone 3, .tone 4, .tone 5, .noise 0, .noise 1]

/-- The rows 0 to 10 of R74. -/
def Event.rowsDmaAndDisplay : List Event :=
  [.dma 0 0, .dma 0 1, .dma 0 2, .dma 0 3, .dma 1 0, .dma 1 1, .dma 1 2, .dma 1 3, .startNextLine, .hBlank, .vBlank]

/-- The rows 11 to 22 of R74. -/
def Event.rowsTimerAndCartridge : List Event :=
  [.timerOverflow 0 0, .timerOverflow 0 1, .timerOverflow 0 2, .timerOverflow 0 3, .timerOverflow 1 0,
    .timerOverflow 1 1, .timerOverflow 1 2, .timerOverflow 1 3, .cartridgeWordTransferred, .cartridgeBlockEnded 0,
    .cartridgeBlockEnded 1, .generateAudioSample]

/-- R74's list of event values, in the order of their ordinals. -/
def Event.all : List Event :=
  Event.rowsDmaAndDisplay ++ Event.rowsTimerAndCartridge ++ ChannelSpec.all.map Event.stepAudioChannel ++
    ChannelSpec.all.map Event.resetAudioChannel

/-- `ev(i)`: the event value of a slot, the inverse of `ord` (R75). -/
def Event.ofOrd (i : SlotIndex) : Event := Event.all[i.val]'i.isLt

end Sys2Proof
end

