-- ==== Sys2Proof/WellFormed.lean ====
section
/-! DEFINITION. Which decoded commands are well formed: the EV field of an event-taking command is a legal event word
(spec/30_encoding.md R73, R80). An ill-formed command is still accepted: it raises ILLEGAL_EVENT (R81 step 3, R83). -/

namespace Sys2Proof

/-- Event-taking commands take every legal event word and no other (R80). -/
def Instr.wellFormed : Instr → Bool
  | .schedule ev _ => EventWord.legal ev
  | .cancel ev _ => EventWord.legal ev
  | .runNow ev _ => EventWord.legal ev
  | .advance _ => true
  | .done _ => true
  | .abort _ => true

end Sys2Proof
end

