-- ==== Sys2Proof/Decode.lean ====
section
/-! DEFINITION. The command decoder, the encoder, the opcode table, and the byte form of a serialised command
(spec/30_encoding.md R77 to R84; spec/20_memory.md R52). -/

namespace Sys2Proof

/-- Why a command cannot be decoded. On the command port the first three all raise ILLEGAL_COMMAND (R82, R185);
`truncated` concerns the byte form alone and never reaches the port. -/
inductive DecodeError where
  /-- `CMD[27:16]` is not zero (R81 step 2). -/
  | reservedBits
  /-- OP is 0x0 or 0x7 .. 0xF (R81 step 2). -/
  | reservedOp
  /-- ADVANCE, DONE or ABORT with a non-zero EV field (R81 step 3). -/
  | eventFieldNotZero
  /-- Fewer than twelve bytes are left of a serialised command stream. -/
  | truncated
  deriving DecidableEq, Repr

/-- OP, bits 31:28 (R77). -/
def CmdWord.opField (w : CmdWord) : BitVec 4 := w.extractLsb' 28 4

/-- RSV, bits 27:16 (R77). -/
def CmdWord.rsvField (w : CmdWord) : BitVec 12 := w.extractLsb' 16 12

/-- EV, bits 15:0 (R77). -/
def CmdWord.evField (w : CmdWord) : EventWord := w.extractLsb' 0 16

/-- `i` if the EV field is zero, as ADVANCE, DONE and ABORT ask (R79, R81 step 3). -/
def ifNoEvent (ev : EventWord) (i : Instr) : Except DecodeError Instr :=
  if ev = 0 then .ok i else .error .eventFieldNotZero

/-- The decoder: total, the same in every mode (R79, R81, R84). ARG is used whole (R78). -/
def decode (r : Request) : Except DecodeError Instr :=
  if CmdWord.rsvField r.cmd = 0 then
    match (CmdWord.opField r.cmd).toNat with
    | 1 => .ok (.schedule (CmdWord.evField r.cmd) r.arg)
    | 2 => .ok (.cancel (CmdWord.evField r.cmd) r.arg)
    | 3 => .ok (.runNow (CmdWord.evField r.cmd) r.arg)
    | 4 => ifNoEvent (CmdWord.evField r.cmd) (.advance r.arg)
    | 5 => ifNoEvent (CmdWord.evField r.cmd) (.done r.arg)
    | 6 => ifNoEvent (CmdWord.evField r.cmd) (.abort r.arg)
    | _ => .error .reservedOp
  else .error .reservedBits

/-- The OP value of a command (R79). -/
def Instr.opCode : Instr → BitVec 4
  | .schedule _ _ => 1
  | .cancel _ _ => 2
  | .runNow _ _ => 3
  | .advance _ => 4
  | .done _ => 5
  | .abort _ => 6

/-- The EV field of a command: its event word, or 0 (R77, R79). -/
def Instr.evOperand : Instr → EventWord
  | .schedule ev _ => ev
  | .cancel ev _ => ev
  | .runNow ev _ => ev
  | .advance _ => 0
  | .done _ => 0
  | .abort _ => 0

/-- The ARG operand presented with a command (R78). -/
def Instr.argOperand : Instr → U64
  | .schedule _ delay => delay
  | .cancel _ arg => arg
  | .runNow _ arg => arg
  | .advance n => n
  | .done arg => arg
  | .abort info => info

/-- The command word of a command: `OP ++ 0 ++ EV` (R77, R85). -/
def Instr.cmdWord (i : Instr) : CmdWord := i.opCode ++ (0 : BitVec 12) ++ i.evOperand

/-- The encoder. -/
def encode (i : Instr) : Request := { cmd := i.cmdWord, arg := i.argOperand }

/-- One row of the opcode table (R79). -/
structure OpcodeRow where
  mnemonic : String
  matchBits : CmdWord
  mask : CmdWord
  deriving DecidableEq, Repr

/-- The opcode table with R79's match and mask columns. -/
def opcodeTable : List OpcodeRow :=
  [⟨"SCHEDULE", 0x10000000, 0xFFFF0000⟩, ⟨"CANCEL", 0x20000000, 0xFFFF0000⟩, ⟨"RUN_NOW", 0x30000000, 0xFFFF0000⟩,
    ⟨"ADVANCE", 0x40000000, 0xFFFFFFFF⟩, ⟨"DONE", 0x50000000, 0xFFFFFFFF⟩, ⟨"ABORT", 0x60000000, 0xFFFFFFFF⟩]

/-- A command word selects a row when `w & mask = match` (R79). -/
def OpcodeRow.selectedBy (row : OpcodeRow) (w : CmdWord) : Bool := w &&& row.mask == row.matchBits

/-- The mnemonic of a command (R79). -/
def Instr.mnemonic : Instr → String
  | .schedule _ _ => "SCHEDULE"
  | .cancel _ _ => "CANCEL"
  | .runNow _ _ => "RUN_NOW"
  | .advance _ => "ADVANCE"
  | .done _ => "DONE"
  | .abort _ => "ABORT"

/-- The `k` low bytes of a number, the lowest first: the little-endian order of R52. -/
def littleEndian : Nat → Nat → List Byte
  | 0, _ => []
  | k + 1, n => BitVec.ofNat 8 n :: littleEndian k (n / 256)

/-- The number a little-endian run of bytes spells (R52). -/
def ofLittleEndian : List Byte → Nat
  | [] => 0
  | b :: bs => b.toNat + 256 * ofLittleEndian bs

/-- A serialised command: the four bytes of CMD, then the eight of ARG, each little-endian.
DESIGN CHOICE (assumption 8): R52 fixes the byte order inside a word and not which word comes first. -/
def Request.bytes (r : Request) : List Byte := littleEndian 4 r.cmd.toNat ++ littleEndian 8 r.arg.toNat

/-- The request that the first twelve bytes of a serialised stream spell. -/
def Request.ofBytes (bs : List Byte) : Request :=
  { cmd := BitVec.ofNat 32 (ofLittleEndian (bs.take 4)), arg := BitVec.ofNat 64 (ofLittleEndian ((bs.drop 4).take 8)) }

/-- Decode a serialised command stream, total on any bytes: the command, and the bytes after it. -/
def decodeBytes (bs : List Byte) : Except DecodeError (Instr × List Byte) :=
  if 12 ≤ bs.length then
    match decode (Request.ofBytes bs) with
    | .ok i => .ok (i, bs.drop 12)
    | .error e => .error e
  else .error .truncated

/-- The request of an instruction given as the opcode table numbers its bits: the command word is bits 31:0, the operand
counts on from bit 32, and every bit from `nbits` up is zero. -/
def tableRequest (nbits w : Nat) : Request :=
  { cmd := BitVec.ofNat 32 (w % 2 ^ nbits), arg := BitVec.ofNat 64 (w % 2 ^ nbits / 2 ^ 32) }

/-- What the decoder reads from an instruction whose bits the opcode table numbers. -/
def decodeTableWord (nbits w : Nat) : Option Instr :=
  match decodeBytes (tableRequest nbits w).bytes with
  | .ok (i, _) => some i
  | .error _ => none

end Sys2Proof
end

