-- ==== Sys2Proof/Machine/State.lean ====
section
/-! DEFINITION. The state of the block and its value after reset (spec/10_state.md R20 to R29, R41). -/

namespace Sys2Proof.Machine

/-- The sequencing register's four values (R26). -/
inductive Mode where
  /-- No drain pass in progress; the owner holds control. -/
  | idle
  /-- The arbiter is about to look at the head. -/
  | check
  /-- The handler of `cur` is running. -/
  | handler
  /-- A fatal condition was recorded; sticky until reset. -/
  | fault
  deriving DecidableEq, Repr

/-- The fault codes (R181). Codes 8 to 15 are never produced. -/
inductive FaultCode where
  /-- 0: no fault since reset. -/
  | none
  /-- 1: ARBITRATE found the store empty (R183). -/
  | queueEmpty
  /-- 2: ABORT in HANDLER (R184). -/
  | handlerAbort
  /-- 3: an undecodable command word (R185). -/
  | illegalCommand
  /-- 4: SCHEDULE, CANCEL or RUN_NOW with an illegal event word (R186). -/
  | illegalEvent
  /-- 5: DONE or ABORT in IDLE (R187). -/
  | protocol
  /-- 6: ADVANCE past `2^64 - 1` (R190). -/
  | cycleOverflow
  /-- 7: SCHEDULE with a due cycle past `2^64 - 1` (R191). -/
  | dueOverflow
  deriving DecidableEq, Repr

/-- What the outside world puts on the block's inputs during one transaction (R32, R36). DESIGN CHOICE (assumptions 1
and 2): the order of these items is the environment's whole freedom. -/
inductive PortItem where
  /-- A requester presents a command and holds it, unchanged, until it is accepted (R32, R33). -/
  | command (r : Request)
  /-- No command is presented during one transaction: `cmd_valid = 0`. -/
  | quiet
  /-- `reset` is asserted (R36). -/
  | reset
  deriving DecidableEq, Repr

/-- Reasons for which a step could stop the machine: there is none, so nobody raises one. Every fatal condition of the
spec is a NEXT state, the fault entry of R188, after which the block goes on accepting and discarding commands (R189);
safe: no behaviour is cut off (assumption 6). -/
inductive Fault where
  deriving DecidableEq, Repr

/-- Reasons for which a command has no meaning in the model. -/
inductive Refusal where
  /-- Raised by an arm of `exec` whose command has no meaning yet; no arm raises it. Safe: the model stops. -/
  | notModelled (mnemonic : String)
  deriving DecidableEq, Repr

/-- The architectural state of the block (R20), and the command port's pending input. -/
structure State where
  /-- The global cycle counter (R21). -/
  cycle : U64
  /-- The pending-event store (R22): entry `i` is `some d` when `v[i] = 1` and `x[i] = d`, and `none` when `v[i] = 0`,
  for then `x[i]` holds no value (R24, decision D23; assumption 3). -/
  slots : Vector (Option U64) 55
  /-- The sequencing register (R26). -/
  mode : Mode
  /-- The event being handled: `some e` when `cur_valid = 1` and `cur` is `e`'s word, `none` when `cur_valid = 0`, for
  then `cur` holds no value (R27, decision D23; assumptions 3 and 4). -/
  cur : Option Event
  /-- The fault code (R28, R181). -/
  fcode : FaultCode
  /-- The event word recorded with the fault (R28); it may be an illegal word (R186). -/
  fev : EventWord
  /-- `fev` holds an event (R28). -/
  fevValid : Bool
  /-- The argument recorded with the fault (R28). -/
  farg : U64
  /-- What the outside world presents next, oldest first (assumption 1); no register of the block. -/
  port : List PortItem
  deriving DecidableEq, Repr

/-- The block right after reset (R41, R220), with nothing presented on its port. -/
def State.reset : State :=
  { cycle := 0
    slots := Vector.replicate 55 none
    mode := .idle
    cur := none
    fcode := .none
    fev := 0
    fevValid := false
    farg := 0
    port := [] }

/-- How a step ends. -/
abbrev Result := Host.Outcome State Fault Refusal

end Sys2Proof.Machine
end

