-- ==== Sys2Proof/Machine/Ops.lean ====
section
/-! DEFINITION. The named operations over the block's state: the slot bank and its primitives (spec/00_scope.md R11),
fault entry and the entry to and return from a handler (spec/60_exceptions.md R188, R198, R199), reset
(spec/70_reset_and_hazards.md R220), and the gate every accepted command passes (spec/30_encoding.md R81). -/

namespace Sys2Proof.Machine

/-- The numeric code of a mode on the status port (R26, R88). -/
def Mode.code : Mode → BitVec 2
  | .idle => 0
  | .check => 1
  | .handler => 2
  | .fault => 3

/-- The numeric code of a fault (R181). -/
def FaultCode.code : FaultCode → BitVec 4
  | .none => 0
  | .queueEmpty => 1
  | .handlerAbort => 2
  | .illegalCommand => 3
  | .illegalEvent => 4
  | .protocol => 5
  | .cycleOverflow => 6
  | .dueOverflow => 7

/-- Slot `i`: its due cycle while `v[i] = 1` (R11, R24). -/
def State.slot (s : State) (i : SlotIndex) : Option U64 := s.slots[i.val]

/-- Write slot `i` whole: valid bit and due register together (R54). -/
def State.setSlot (s : State) (i : SlotIndex) (x : Option U64) : State :=
  { s with slots := s.slots.set i.val x }

/-- `QLookup(e)` (R11). -/
def State.qLookup (s : State) (e : Event) : Option U64 := s.slot e.ord

/-- `QInsert(e, d)`; it overwrites a pending entry of the same event (R11, R105). -/
def State.qInsert (s : State) (e : Event) (d : U64) : State := s.setSlot e.ord (some d)

/-- `QRemove(e)` (R11). -/
def State.qRemove (s : State) (e : Event) : State := s.setSlot e.ord none

/-- Every slot index, in ascending order. -/
def allSlots : List SlotIndex := List.finRange 55

/-- The indexes of the valid slots, in ascending order. -/
def State.pending (s : State) : List SlotIndex := allSlots.filter fun i => (s.slot i).isSome

/-- `QEmpty()`: no slot is valid (R11). -/
def State.qEmpty (s : State) : Bool := allSlots.all fun i => (s.slot i).isNone

/-- The least of a list of due cycles, as unsigned numbers. -/
def leastDue : List U64 → Option U64
  | [] => none
  | d :: ds =>
    match leastDue ds with
    | none => some d
    | some m => some (if d ≤ m then d else m)

/-- The due cycles of the pending entries. -/
def State.pendingDues (s : State) : List U64 := allSlots.filterMap s.slot

/-- The slots that hold the due cycle `d`, in ascending order: the set the tie-break chooses from (R126). -/
def State.slotsDueAt (s : State) (d : U64) : List SlotIndex := allSlots.filter fun i => s.slot i == some d

/-- This hardware's tie-break: the lowest ordinal, which is the lowest event word (R76, R126, decision D6). -/
def lowestFirst : TiePolicy := List.head?

/-- The head under a tie-break: the least due cycle first, then the tie-break among the entries that share it (R126).
It answers the head's slot and due cycle, and nothing when the store is empty. -/
def State.headWith (tie : TiePolicy) (s : State) : Option (SlotIndex × U64) :=
  match leastDue s.pendingDues with
  | none => none
  | some d => (tie (s.slotsDueAt d)).map fun i => (i, d)

/-- `QHead()` with the due cycle of the slot it selects (R11, R126). -/
def State.qHead (s : State) : Option (SlotIndex × U64) := s.headWith lowestFirst

/-- The block's one adder: the exact sum of two operands, nothing when it does not fit in 64 bits (R10, R137). -/
def addExact (a b : U64) : Option U64 :=
  if a.toNat + b.toNat < 2 ^ 64 then some (a + b) else none

/-- Fault entry, `raise F(e, a)`: the fault registers and `mode`, and nothing else (R12, R188). -/
def State.raise (s : State) (f : FaultCode) (e : Option EventWord) (a : U64) : State :=
  { s with
    fcode := f
    fevValid := e.isSome
    fev := e.getD 0
    farg := a
    mode := .fault }

/-- Dispatch entry: slot `h` is popped before its handler is invoked, `cur` takes its event, `mode` becomes HANDLER, and
nothing else is saved or changed (R128, R129, R130, R198). -/
def State.dispatch (s : State) (h : SlotIndex) : State :=
  { s.setSlot h none with
    cur := some (Event.ofOrd h)
    mode := .handler }

/-- Return from a handler: `cur_valid` is cleared and the arbiter re-checks the head; nothing is restored, because nothing
was saved (R124, R199). -/
def State.handlerReturn (s : State) : State :=
  { s with
    cur := none
    mode := .check }

/-- Reset, in any mode (R220). What the outside world presents next is not the block's to reset. -/
def State.applyReset (s : State) : State := { State.reset with port := s.port }

/-- The word in `cur`, while `cur_valid = 1` (R27). -/
def State.curWord (s : State) : Option EventWord := s.cur.map Event.word

/-- The gate of an accepted command: in FAULT it is discarded (R81 step 1, R189); in CHECK the port is not ready and
the command has no effect while it waits (R33, R202; assumption 5); otherwise its rule applies. -/
def State.accepting (s : State) (body : State) : State :=
  match s.mode with
  | .idle => body
  | .handler => body
  | .check => s
  | .fault => s

end Sys2Proof.Machine
end

