-- ==== Sys2Proof/Machine/Arbiter.lean ====
section
/-! DEFINITION. The arbiter's one step, ARBITRATE: PEEK, COMPARE, POP-IF-DUE, DISPATCH (spec/41_clock_and_dispatch.md R126
to R133). -/

namespace Sys2Proof.Machine

/-- ARBITRATE under a tie-break (R126, R129). An empty store raises QUEUE_EMPTY with the counter recorded (R133, R183);
a head that is due is popped and dispatched; otherwise the drain pass ends (R132). -/
def State.arbitrateWith (tie : TiePolicy) (s : State) : State :=
  match s.headWith tie with
  | none => s.raise .queueEmpty none s.cycle
  | some (h, d) => if d ≤ s.cycle then s.dispatch h else { s with mode := .idle }

/-- ARBITRATE on this hardware, whose tie-break is the lowest event word (R126, R129). -/
def State.arbitrate (s : State) : State := s.arbitrateWith lowestFirst

end Sys2Proof.Machine
end

