-- ==== Sys2Proof/Machine/Operands.lean ====
section
/-! DEFINITION. The operand forms of the commands: the event operand with its legality test (spec/30_encoding.md R80, R81
step 3, R83), the 64-bit operand added to the counter (spec/41_clock_and_dispatch.md R137), and the command word that a
fault records (spec/60_exceptions.md R181). -/

namespace Sys2Proof.Machine

/-- An event operand: a legal event word names its event; an illegal one raises ILLEGAL_EVENT with the word and ARG
recorded, and touches no slot (R81 step 3, R83, R186). -/
def State.withEvent (s : State) (ev : EventWord) (arg : U64) (body : Event → State) : State :=
  match Event.ofWord ev with
  | some e => body e
  | none => s.raise .illegalEvent (some ev) arg

/-- A 64-bit operand added to the counter: `cycle + a` when it fits, otherwise the fault `f` with the operand recorded
(R101, R121, R122, R137). -/
def State.withSum (s : State) (a : U64) (f : FaultCode) (e : Option EventWord) (body : U64 → State) : State :=
  match addExact s.cycle a with
  | some sum => body sum
  | none => s.raise f e a

/-- `zext_64(CMD)`, as ILLEGAL_COMMAND and PROTOCOL record it (R181, R185, R187). -/
def CmdWord.recorded (w : CmdWord) : U64 := w.setWidth 64

/-- The event word that an overflowing ADVANCE records: `cur` in HANDLER, none in IDLE (R121, R122, R190). -/
def State.runningWord (s : State) : Option EventWord :=
  match s.mode with
  | .handler => s.curWord
  | .idle => none
  | .check => none
  | .fault => none

end Sys2Proof.Machine
end

