-- ==== Sys2Proof/Machine/ClockCommands.lean ====
section
/-! DEFINITION. The clock command ADVANCE (spec/41_clock_and_dispatch.md R120 to R123). -/

namespace Sys2Proof.Machine

/-- The mode after an ADVANCE: in IDLE a drain pass begins (R121); in HANDLER the mode stays, for handlers do not nest
(R122, R135). -/
def Mode.afterAdvance : Mode → Mode
  | .idle => .check
  | .check => .check
  | .handler => .handler
  | .fault => .fault

/-- `ADVANCE <n>`: the whole amount is added to the counter at once, and in IDLE a drain pass begins; CYCLE_OVERFLOW
when the sum does not fit (R121, R122, R190). -/
def execAdvance (n : U64) (s : State) : Result :=
  .next (s.accepting (s.withSum n .cycleOverflow s.runningWord fun sum =>
    { s with cycle := sum, mode := s.mode.afterAdvance }))

end Sys2Proof.Machine
end

