-- ==== Sys2Proof/Machine/HandshakeCommands.lean ====
section
/-! DEFINITION. The handshake commands DONE and ABORT (spec/41_clock_and_dispatch.md R124, R125). -/

namespace Sys2Proof.Machine

/-- A handshake command: PROTOCOL with the command word recorded when no handler is running (R81 step 4, R187), the
command's own effect in HANDLER. -/
def State.handshake (s : State) (i : Instr) (body : State) : State :=
  match s.mode with
  | .idle => s.raise .protocol none (CmdWord.recorded i.cmdWord)
  | .handler => body
  | .check => s
  | .fault => s

/-- `DONE`: the handler returns and the arbiter re-checks the head (R124). ARG is ignored (R78). -/
def execDone (arg : U64) (s : State) : Result :=
  .next (s.accepting (s.handshake (.done arg) s.handlerReturn))

/-- `ABORT <info>`: the running handler reports a fatal condition; HANDLER_ABORT with `cur` and `info` recorded
(R125, R184). -/
def execAbort (info : U64) (s : State) : Result :=
  .next (s.accepting (s.handshake (.abort info) (s.raise .handlerAbort s.curWord info)))

end Sys2Proof.Machine
end

