-- ==== Sys2Proof/Machine/QueueCommands.lean ====
section
/-! DEFINITION. The queue commands SCHEDULE, CANCEL and RUN_NOW (spec/40_queue_commands.md R100 to R108). -/

namespace Sys2Proof.Machine

/-- `SCHEDULE <event>, <delay>`: insert the event with due cycle `cycle + delay`, displacing a pending entry of the same
event; DUE_OVERFLOW when the sum does not fit (R101, R105, R191). -/
def execSchedule (ev : EventWord) (delay : U64) (s : State) : Result :=
  .next (s.accepting (s.withEvent ev delay fun e => s.withSum delay .dueOverflow (some ev) fun due => s.qInsert e due))

/-- `CANCEL <event>`: remove the event's entry; no change if it is not pending (R102, R211). ARG is recorded only when
the event word is illegal (R186). -/
def execCancel (ev : EventWord) (arg : U64) (s : State) : Result :=
  .next (s.accepting (s.withEvent ev arg fun e => s.qRemove e))

/-- `RUN_NOW <event>`: insert the event with due cycle `cycle`; its handler is not run now (R103, R106). ARG is recorded
only when the event word is illegal (R186). -/
def execRunNow (ev : EventWord) (arg : U64) (s : State) : Result :=
  .next (s.accepting (s.withEvent ev arg fun e => s.qInsert e s.cycle))

end Sys2Proof.Machine
end

