-- ==== Sys2Proof/Machine/Dispatch.lean ====
section
/-! DEFINITION. One arm per command (spec/30_encoding.md R79). -/

namespace Sys2Proof.Machine

def exec (i : Instr) (s : State) : Host.Outcome State Fault Refusal :=
  match i with
  | .schedule ev delay => Sys2Proof.Machine.execSchedule ev delay s
  | .cancel ev arg => Sys2Proof.Machine.execCancel ev arg s
  | .runNow ev arg => Sys2Proof.Machine.execRunNow ev arg s
  | .advance n => Sys2Proof.Machine.execAdvance n s
  | .done arg => Sys2Proof.Machine.execDone arg s
  | .abort info => Sys2Proof.Machine.execAbort info s

end Sys2Proof.Machine
end

