-- ==== Sys2Proof/Machine/Port.lean ====
section
/-! DEFINITION. The command port, the reset input and the block's moves without a command (spec/10_state.md R32, R33, R36;
spec/30_encoding.md R81), and how an instruction is put where the next step takes it. -/

namespace Sys2Proof.Machine

/-- `cmd_ready`: 1 in IDLE, HANDLER and FAULT (R33). -/
def State.cmdReady (s : State) : Bool :=
  match s.mode with
  | .idle => true
  | .check => false
  | .handler => true
  | .fault => true

/-- An undecodable command word raises ILLEGAL_COMMAND with the word recorded, and is discarded in FAULT
(R81 steps 1 to 3, R82, R185). -/
def State.illegalCommand (s : State) (cmd : CmdWord) : State :=
  s.accepting (s.raise .illegalCommand none (CmdWord.recorded cmd))

/-- The acceptance of a command: decode, then its own rule (R81). -/
def State.acceptRequest (s : State) (r : Request) : Result :=
  match decode r with
  | .ok i => exec i s
  | .error _ => .next (s.illegalCommand r.cmd)

/-- The block's move when no command is accepted: ARBITRATE in CHECK (R129); in every other mode the block waits and
nothing changes (R208, R232; assumption 2). -/
def State.ownMove (s : State) : State :=
  match s.mode with
  | .check => s.arbitrate
  | .idle => s
  | .handler => s
  | .fault => s

/-- One transaction with `item` presented and `rest` to come (R32, R33, R36). A command that is not accepted stays on
the port, unchanged. -/
def State.transact (s : State) (item : PortItem) (rest : List PortItem) : Result :=
  match item with
  | .reset => .next { s with port := rest }.applyReset
  | .quiet => .next { s with port := rest }.ownMove
  | .command r => if s.cmdReady then { s with port := rest }.acceptRequest r else .next s.ownMove

/-- Present a request before anything else on the port. -/
def State.present (s : State) (r : Request) : State := { s with port := .command r :: s.port }

end Sys2Proof.Machine
end

