-- ==== Sys2Proof/Machine/Step.lean ====
section
/-! DEFINITION. One step of the machine: one accepted command, one ARBITRATE, one reset, or one transaction in which
nothing happens (spec/00_scope.md R5, R6), and the placing of an instruction before the next step. -/

namespace Sys2Proof.Machine

/-- One step. The mode and the port decide who moves (R6): reset first, then a command if the port is ready, then the
arbiter. -/
def step (s : State) : Host.Outcome State Fault Refusal :=
  match s.port with
  | [] => .next s.ownMove
  | item :: rest => s.transact item rest

/-- `s` with the instruction whose table bits are `w` presented on the command port before anything else. The block
fetches nothing (R26): a command comes to run by being presented (assumption 1). In CHECK the port is not ready, so
there the ARBITRATE step comes first (R33; assumption 18). -/
def State.withFetchWord (s : State) (nbits w : Nat) : State := s.present (tableRequest nbits w)

end Sys2Proof.Machine
end

