-- ==== Sys2Proof/Machine/Assembler.lean ====
section
/-! DEFINITION. The assembler for commands (spec/30_encoding.md R85, R86): its statements, the two pseudo-instructions, and
the reading of one line of text (assumption 14). -/

namespace Sys2Proof

/-- An assembler statement (R85), the pseudo-instructions among them (R86). -/
inductive AsmStatement where
  | schedule (e : Event) (delay : U64)
  | cancel (e : Event)
  | runNow (e : Event)
  | advance (n : U64)
  | done
  | abort (info : U64)
  /-- `DRAIN`: `ADVANCE 0`. -/
  | drain
  /-- `RESCHEDULE <event>, <delay>`: `CANCEL <event>`, then `SCHEDULE <event>, <delay>`. -/
  | reschedule (e : Event) (delay : U64)
  deriving DecidableEq, Repr

/-- The commands a statement stands for; ARG is 0 for CANCEL, RUN_NOW and DONE (R85, R86). -/
def AsmStatement.expand : AsmStatement → List Instr
  | .schedule e delay => [.schedule e.word delay]
  | .cancel e => [.cancel e.word 0]
  | .runNow e => [.runNow e.word 0]
  | .advance n => [.advance n]
  | .done => [.done 0]
  | .abort info => [.abort info]
  | .drain => [.advance 0]
  | .reschedule e delay => [.cancel e.word 0, .schedule e.word delay]

/-- The requests the assembler emits for a statement (R85). -/
def AsmStatement.assemble (st : AsmStatement) : List Request := st.expand.map encode

/-- The tokens of a line: a run of letters, digits and underscores, or a punctuation mark. -/
inductive Token where
  | word (cs : List Char)
  | lparen
  | rparen
  | comma
  deriving DecidableEq, Repr

/-- A word under way is put before the tokens that follow it. -/
def flushWord (acc : List Char) (rest : List Token) : List Token :=
  if acc = [] then rest else .word acc :: rest

/-- The tokens of a line; a `;` starts a comment (R85). Nothing for a character that belongs to no token. -/
def tokens : List Char → List Char → Option (List Token)
  | [], acc => some (flushWord acc [])
  | c :: cs, acc =>
    if c.isAlphanum || c == '_' then tokens cs (acc ++ [c])
    else if c = ';' then some (flushWord acc [])
    else if c = ' ' || c = '\t' then (tokens cs []).map (flushWord acc)
    else if c = '(' then (tokens cs []).map fun ts => flushWord acc (.lparen :: ts)
    else if c = ')' then (tokens cs []).map fun ts => flushWord acc (.rparen :: ts)
    else if c = ',' then (tokens cs []).map fun ts => flushWord acc (.comma :: ts)
    else none

/-- The value of a digit, decimal or hexadecimal. -/
def digitValue (c : Char) : Option Nat :=
  if '0' ≤ c ∧ c ≤ '9' then some (c.toNat - '0'.toNat)
  else if 'a' ≤ c ∧ c ≤ 'f' then some (c.toNat - 'a'.toNat + 10)
  else if 'A' ≤ c ∧ c ≤ 'F' then some (c.toNat - 'A'.toNat + 10)
  else none

/-- The digits of a numeral, read on from `value`; an underscore is a separator with no value (R9). DESIGN CHOICE
(assumption 14): it may stand anywhere in the numeral. That there is a digit at all is `numeral`'s test. -/
def digits (base : Nat) : List Char → Nat → Option Nat
  | [], value => some value
  | c :: cs, value =>
    if c = '_' then digits base cs value
    else
      match digitValue c with
      | some d => if d < base then digits base cs (value * base + d) else none
      | none => none

/-- An unsigned numeral, decimal or `0x` hexadecimal (R85). DESIGN CHOICE (assumption 14): a numeral holds a digit, so that
underscores alone, or nothing but underscores after `0x`, are no numeral. R9 and R85 do not say. -/
def numeral (cs : List Char) : Option Nat :=
  let body := match cs with
    | '0' :: 'x' :: rest => rest
    | _ => cs
  let base := match cs with
    | '0' :: 'x' :: _ => 16
    | _ => 10
  if body.any (fun c => c != '_') then digits base body 0 else none

/-- A numeral in `0 .. 2^64-1` (R85). -/
def operandOf (cs : List Char) : Option U64 :=
  (numeral cs).bind fun n => if n < 2 ^ 64 then some (BitVec.ofNat 64 n) else none

/-- A numeral below `n`. -/
def indexOf (n : Nat) (cs : List Char) : Option (Fin n) :=
  (numeral cs).bind fun k => if h : k < n then some ⟨k, h⟩ else none

/-- A `channel_spec` written as R14 writes it: an audio kind and a slot index. -/
def channelOf (kind slot : List Char) : Option ChannelSpec :=
  if kind = "General".toList then (indexOf 8 slot).map .general
  else if kind = "Tone".toList then (indexOf 6 slot).map .tone
  else if kind = "Noise".toList then (indexOf 2 slot).map .noise
  else none

/-- An event without payload, by its name (R14). -/
def plainEventOf (name : List Char) : Option Event :=
  if name = "StartNextLine".toList then some .startNextLine
  else if name = "HBlank".toList then some .hBlank
  else if name = "VBlank".toList then some .vBlank
  else if name = "CartridgeWordTransferred".toList then some .cartridgeWordTransferred
  else if name = "GenerateAudioSample".toList then some .generateAudioSample
  else none

/-- An event with two payload fields, by its name (R14). -/
def pairEventOf (name x y : List Char) : Option Event :=
  if name = "DMA".toList then (indexOf 2 x).bind fun c => (indexOf 4 y).map (.dma c)
  else if name = "TimerOverflow".toList then (indexOf 2 x).bind fun c => (indexOf 4 y).map (.timerOverflow c)
  else if name = "StepAudioChannel".toList then (channelOf x y).map .stepAudioChannel
  else if name = "ResetAudioChannel".toList then (channelOf x y).map .resetAudioChannel
  else none

/-- An event at the front of a token list, and the tokens after it (R14). -/
def eventAt : List Token → Option (Event × List Token)
  | .word name :: .lparen :: .word x :: .comma :: .word y :: .rparen :: rest =>
    (pairEventOf name x y).map fun e => (e, rest)
  | .word name :: .lparen :: .word x :: .rparen :: rest =>
    if name = "CartridgeBlockEnded".toList then (indexOf 2 x).map fun c => (.cartridgeBlockEnded c, rest) else none
  | .word name :: rest => (plainEventOf name).map fun e => (e, rest)
  | _ => none

/-- `<event>` and nothing after it. -/
def eventOperand (f : Event → AsmStatement) (ts : List Token) : Option AsmStatement :=
  match eventAt ts with
  | some (e, []) => some (f e)
  | _ => none

/-- `<event>, <numeral>` and nothing after it. -/
def eventAndNumber (f : Event → U64 → AsmStatement) (ts : List Token) : Option AsmStatement :=
  match eventAt ts with
  | some (e, [.comma, .word n]) => (operandOf n).map (f e)
  | _ => none

/-- `<numeral>` and nothing after it. -/
def numberOperand (f : U64 → AsmStatement) : List Token → Option AsmStatement
  | [.word n] => (operandOf n).map f
  | _ => none

/-- The operands inside a pair of parentheses, as the document's function names take them (R85). -/
def unparenthesised : List Token → Option (List Token)
  | .lparen :: rest => if rest.getLast? = some .rparen then some rest.dropLast else none
  | _ => none

/-- A statement from its mnemonic, or the document's function name, and the tokens after it (R85, R86). -/
def statementOf (name : List Char) (ts : List Token) : Option AsmStatement :=
  if name = "SCHEDULE".toList then eventAndNumber .schedule ts
  else if name = "CANCEL".toList then eventOperand .cancel ts
  else if name = "RUN_NOW".toList then eventOperand .runNow ts
  else if name = "ADVANCE".toList then numberOperand .advance ts
  else if name = "DONE".toList then (if ts = [] then some .done else none)
  else if name = "ABORT".toList then numberOperand .abort ts
  else if name = "DRAIN".toList then (if ts = [] then some .drain else none)
  else if name = "RESCHEDULE".toList then eventAndNumber .reschedule ts
  else if name = "schedule".toList then (unparenthesised ts).bind (eventAndNumber .schedule)
  else if name = "cancel".toList then (unparenthesised ts).bind (eventOperand .cancel)
  else if name = "run_now".toList then (unparenthesised ts).bind (eventOperand .runNow)
  else if name = "advance_clock".toList then (unparenthesised ts).bind (numberOperand .advance)
  else none

/-- One line of assembler text: nothing for a line that is no statement, and an empty list for a blank or comment line
(R85). -/
def assembleLine (line : String) : Option (List Request) :=
  match tokens line.toList [] with
  | some [] => some []
  | some (.word name :: ts) => (statementOf name ts).map AsmStatement.assemble
  | _ => none

end Sys2Proof
end

