-- ==== Sys2Proof/Machine/Environment.lean ====
section
/-! DEFINITION. The environment contract (spec/42_event_kinds_and_clients.md R150 to R170) and the boot sequence
(spec/70_reset_and_hazards.md R223 to R225): what the clients do TO THE SCHEDULER. Nothing here changes what the block
does; these are assumptions that a claim about the whole timing kernel may take (R150). -/

namespace Sys2Proof.Machine

/-- A handler script: the commands one invocation issues, in order (R87, R151). -/
abbrev Script := List Instr

/-- The requests that put a script on the command port. -/
def Script.requests (script : Script) : List Request := script.map encode

/-- DONE or ABORT: the two commands that end a handler (R151). -/
def endsHandler : Instr → Bool
  | .schedule _ _ => false
  | .cancel _ _ => false
  | .runNow _ _ => false
  | .advance _ => false
  | .done _ => true
  | .abort _ => true

/-- A script ends with exactly one DONE or ABORT and has none before its end (R151). -/
def wellEnded : Script → Bool
  | [] => false
  | [i] => endsHandler i
  | i :: j :: rest => !endsHandler i && wellEnded (j :: rest)

/-! The kinds of command that the contract speaks of. -/

/-- An ADVANCE whose amount passes the test. -/
def advancesBy (test : U64 → Bool) : Instr → Bool
  | .schedule _ _ => false
  | .cancel _ _ => false
  | .runNow _ _ => false
  | .advance n => test n
  | .done _ => false
  | .abort _ => false

/-- A SCHEDULE of `e` with a delay that passes the test. -/
def schedulesIn (e : Event) (test : U64 → Bool) : Instr → Bool
  | .schedule ev delay => ev == e.word && test delay
  | .cancel _ _ => false
  | .runNow _ _ => false
  | .advance _ => false
  | .done _ => false
  | .abort _ => false

/-- A CANCEL of `e`. -/
def cancels (e : Event) : Instr → Bool
  | .schedule _ _ => false
  | .cancel ev _ => ev == e.word
  | .runNow _ _ => false
  | .advance _ => false
  | .done _ => false
  | .abort _ => false

/-- A command that makes `e` due at once: RUN_NOW, or SCHEDULE with delay 0, which is the same (R104, R156). -/
def makesDue (e : Event) : Instr → Bool
  | .schedule ev delay => ev == e.word && delay == 0
  | .cancel _ _ => false
  | .runNow ev _ => ev == e.word
  | .advance _ => false
  | .done _ => false
  | .abort _ => false

/-- An ABORT. -/
def isAbort : Instr → Bool
  | .schedule _ _ => false
  | .cancel _ _ => false
  | .runNow _ _ => false
  | .advance _ => false
  | .done _ => false
  | .abort _ => true

/-- The script aborts (R169). -/
def aborts (script : Script) : Bool := script.any isAbort

/-- The delay of a SCHEDULE of `e`. -/
def scheduleDelay (e : Event) : Instr → Option U64
  | .schedule ev delay => if ev = e.word then some delay else none
  | .cancel _ _ => none
  | .runNow _ _ => none
  | .advance _ => none
  | .done _ => none
  | .abort _ => none

/-- The delays with which a script schedules `e`, in order. -/
def scheduled (e : Event) (script : Script) : List U64 := script.filterMap (scheduleDelay e)

/-- The eight `DMA` events. -/
def dmaEvents : List Event := Event.all.filter fun e => e.kind == .dma

/-- A DMA trigger through the block, for any controller and channel (R154). -/
def triggersDma (i : Instr) : Bool := dmaEvents.any fun e => makesDue e i

/-- The sixteen `StepAudioChannel` events. -/
def stepEvents : List Event := ChannelSpec.all.map .stepAudioChannel

/-- The total a DMA run passes to ADVANCE: two cycles of overhead and, per unit, the access times of its source and its
destination (R153). -/
def dmaTotal (accessTimes : List (Nat × Nat)) : Nat := 2 + (accessTimes.map fun t => t.1 + t.2).sum

/-- The re-arm delay of an audio channel: the two's-complement negation of its 16-bit reload value, and no re-arm for a
reload of zero (R163). -/
def audioDelay (reload : BitVec 16) : Option U64 :=
  if reload = 0 then none else some ((-reload).setWidth 64)

/-- A delay that some reload value gives (R163). -/
def isAudioDelay (d : U64) : Bool := 1 ≤ d && d ≤ 65535

/-! The contract. -/

/-- Who makes `HBlank` pending once per line: the document leaves it open, and a model must allow either (R157). -/
inductive HBlankArming where
  /-- The `StartNextLine` handler schedules it at HBLANK_OFFSET into the line. -/
  | byStartNextLine
  /-- The `HBlank` handler schedules itself again with LINE_PERIOD. -/
  | byItself
  deriving DecidableEq, Repr

/-- What the display subsystem and the machine settle about one invocation (R156, R157). -/
structure Situation where
  /-- Who makes `HBlank` pending. -/
  hBlank : HBlankArming
  /-- "Did this boundary cross into vertical blank?" Asked by the `StartNextLine` handler alone. -/
  crossing : Bool
  deriving DecidableEq, Repr

/-- The commands that a completed invocation issues exactly once each, and an aborting one at most once: the DMA total
(R153), the self-SCHEDULE of the line and of the heartbeat (R156, R161), `VBlank` due at once on the line that crosses
(R156), and `HBlank` by whichever handler arms it (R157). -/
def onceEach (p : Periods) (c : Situation) (e : Event) : List (Instr → Bool) :=
  match e with
  | .dma _ _ => [advancesBy fun n => 2 ≤ n]
  | .startNextLine =>
    [schedulesIn .startNextLine fun d => d == p.line] ++ (if c.crossing then [makesDue .vBlank] else []) ++
      (if c.hBlank = .byStartNextLine then [schedulesIn .hBlank fun d => d == p.hBlankOffset] else [])
  | .hBlank => if c.hBlank = .byItself then [schedulesIn .hBlank fun d => d == p.line] else []
  | .vBlank => []
  | .timerOverflow _ _ => []
  | .cartridgeWordTransferred => []
  | .cartridgeBlockEnded _ => []
  | .generateAudioSample => [schedulesIn .generateAudioSample fun d => d == p.sample]
  | .stepAudioChannel _ => []
  | .resetAudioChannel _ => []

/-- The commands that an invocation issues at most once: an audio channel's re-arm, absent when its reload is zero or the
channel has stopped (R163, R164). -/
def onceAtMost (e : Event) : List (Instr → Bool) :=
  match e with
  | .stepAudioChannel _ => [schedulesIn e isAudioDelay]
  | .dma _ _ => []
  | .startNextLine => []
  | .hBlank => []
  | .vBlank => []
  | .timerOverflow _ _ => []
  | .cartridgeWordTransferred => []
  | .cartridgeBlockEnded _ => []
  | .generateAudioSample => []
  | .resetAudioChannel _ => []

/-- Arming or cancelling an audio channel's step, as whoever enables or disables the channel does (R162, R164). -/
def switchesAudio (i : Instr) : Bool :=
  stepEvents.any fun e => schedulesIn e (fun _ => true) i || makesDue e i || cancels e i

/-- The commands that an invocation issues as often as it likes: DMA triggers from the two blanking handlers (R154, R157,
R158); the arming and the CANCEL of audio channel steps from the DMA handler, whose transfer may write the registers that
enable a channel (R162: the owner "or a handler"; assumption 10); and anything from the handlers of which the document
says nothing (R159, R160). -/
def freely (e : Event) : Instr → Bool :=
  match e with
  | .hBlank => triggersDma
  | .vBlank => triggersDma
  | .timerOverflow _ _ => fun _ => true
  | .cartridgeWordTransferred => fun _ => true
  | .cartridgeBlockEnded _ => fun _ => true
  | .dma _ _ => switchesAudio
  | .startNextLine => fun _ => false
  | .generateAudioSample => fun _ => false
  | .stepAudioChannel _ => fun _ => false
  | .resetAudioChannel _ => fun _ => false

/-- Which handlers may abort: all but the two whose whole traffic ends in DONE by the document's words (R151, R161, R165,
R169). -/
def mayAbort : Event → Bool
  | .generateAudioSample => false
  | .resetAudioChannel _ => false
  | .dma _ _ => true
  | .startNextLine => true
  | .hBlank => true
  | .vBlank => true
  | .timerOverflow _ _ => true
  | .cartridgeWordTransferred => true
  | .cartridgeBlockEnded _ => true
  | .stepAudioChannel _ => true

/-- A command that some line of the contract for `e` allows before the end of an invocation. -/
def mayIssue (p : Periods) (c : Situation) (e : Event) (i : Instr) : Bool :=
  (onceEach p c e).any (fun test => test i) || (onceAtMost e).any (fun test => test i) || freely e i

/-- The order the document gives within one invocation: the DMA handler's ADVANCE comes after the transfer loop, whose
register writes are its only other traffic, and what follows it is no command to the block, so that it is the last command
before the end (R153, R155). Where another row has more than one command, no order is given. -/
def inOrder (e : Event) (script : Script) : Bool :=
  match e with
  | .dma _ _ => script.dropLast.dropLast.all fun i => !advancesBy (fun _ => true) i
  | .startNextLine => true
  | .hBlank => true
  | .vBlank => true
  | .timerOverflow _ _ => true
  | .cartridgeWordTransferred => true
  | .cartridgeBlockEnded _ => true
  | .generateAudioSample => true
  | .stepAudioChannel _ => true
  | .resetAudioChannel _ => true

/-- What the document fixes of each handler's scheduler traffic, row by row of R170: an invocation issues nothing but what
its row names, an aborting one too, in the order that is given, and a completed one all that its row asks for. A cell "none stated" is read as none,
and a cell `?` allows what its rule leaves open (assumption 10). -/
def handlerContract (p : Periods) (c : Situation) (e : Event) (script : Script) : Bool :=
  wellEnded script && script.dropLast.all (mayIssue p c e) && inOrder e script &&
    (onceAtMost e).all (fun test => script.countP test ≤ 1) &&
    if aborts script then mayAbort e && (onceEach p c e).all fun test => script.countP test ≤ 1
    else (onceEach p c e).all fun test => script.countP test == 1

/-- The boot sequence: the perpetual events, and `HBlank` if its handler re-arms itself (R224). Any order does (R225). -/
def bootSequence (p : Periods) (arming : HBlankArming) : Script :=
  [.schedule Event.generateAudioSample.word p.bootSample, .schedule Event.startNextLine.word p.bootLine] ++
    if arming = .byItself then [.schedule Event.hBlank.word p.bootHBlank] else []

/-- The kinds whose arming the document leaves to nobody in particular: timers, the cartridge interface and the muting of
an audio channel (R159, R160, R165; assumption 10). -/
def isUnassigned : EventKind → Bool
  | .timerOverflow => true
  | .cartridgeWordTransferred => true
  | .cartridgeBlockEnded => true
  | .resetAudioChannel => true
  | .dma => false
  | .startNextLine => false
  | .hBlank => false
  | .vBlank => false
  | .generateAudioSample => false
  | .stepAudioChannel => false

/-- The commands the owner issues in IDLE once booted: ADVANCE, the arming and the CANCEL of audio channel steps,
immediate DMA triggers (R154, R162, R164, R170), and queue commands for the events of unassigned kinds. -/
def ownerMay (i : Instr) : Bool :=
  advancesBy (fun _ => true) i || switchesAudio i || triggersDma i ||
    (Event.all.filter fun e => isUnassigned e.kind).any fun e =>
      schedulesIn e (fun _ => true) i || makesDue e i || cancels e i

/-- The owner's commands from reset: the boot SCHEDULEs, all of them and each once, come before the first ADVANCE in any
order, and everything else is what the owner issues in IDLE (R170, R223 to R225). -/
def ownerContract (p : Periods) (arming : HBlankArming) (commands : Script) : Bool :=
  let boot := commands.takeWhile fun i => !advancesBy (fun _ => true) i
  let later := commands.dropWhile fun i => !advancesBy (fun _ => true) i
  (bootSequence p arming).all (fun i => boot.count i == 1) &&
    boot.all (fun i => (bootSequence p arming).contains i || ownerMay i) && later.all ownerMay

end Sys2Proof.Machine
end

