-- ==== Sys2Proof/Machine/DrainPass.lean ====
section
/-! DEFINITION. A whole drain pass as one function of a given environment (spec/00_scope.md R15;
spec/41_clock_and_dispatch.md R136), and whole runs (spec/70_reset_and_hazards.md R226). -/

namespace Sys2Proof.Machine

/-- The environment's handler `H(e, s)`: the requests it puts on the command port when `e` is dispatched and leaves the
block in `s`, undecodable words among them (R87, R136, R200). It is an argument of the claims about whole passes, no part
of the block. -/
abbrev Handler := Event → State → List Request

/-- The state after one accepted command (`Laws.exec_afterCommand`: every command answers a next state). -/
def State.afterCommand (s : State) (i : Instr) : State :=
  match exec i s with
  | .next t => t
  | .fault _ => s
  | .refused _ => s

/-- The state after one accepted request, decodable or not. -/
def State.afterRequest (s : State) (r : Request) : State :=
  match s.acceptRequest r with
  | .next t => t
  | .fault _ => s
  | .refused _ => s

/-- The state in which a handler's requests leave the block: CHECK after DONE, or FAULT, in which what is left of them is
discarded (R189, R200). It answers nothing for a list that never ends the handler, which is a stuck pass (R209, R232).
DESIGN CHOICE (assumption 15): it answers nothing either for requests left over after DONE. R136 speaks of lists that end
in DONE; such requests belong to whatever runs next (R240), and only `step` follows them. -/
def runHandler : State → List Request → Option State
  | s, [] =>
    match s.mode with
    | .check => some s
    | .fault => some s
    | .handler => none
    | .idle => none
  | s, r :: rest =>
    match s.mode with
    | .handler => runHandler (s.afterRequest r) rest
    | .fault => some s
    | .check => none
    | .idle => none

/-- A drain pass from CHECK with at most `fuel` ARBITRATE steps (R15, R136). It answers the state in which the pass ends,
IDLE or FAULT, and nothing when the fuel runs out or `runHandler` answers nothing: an endless or stuck pass is neither a
fault nor a final state (R209, R232; assumption 15). -/
def drain (H : Handler) : Nat → State → Option State
  | 0, _ => none
  | fuel + 1, s =>
    match s.arbitrate.mode, s.arbitrate.cur with
    | .handler, some e =>
      (runHandler s.arbitrate (H e s.arbitrate)).bind fun t =>
        match t.mode with
        | .check => drain H fuel t
        | .fault => some t
        | .idle => none
        | .handler => none
    | .handler, none => none
    | .check, _ => none
    | .idle, _ => some s.arbitrate
    | .fault, _ => some s.arbitrate

/-- The requests that the handlers of a drain pass put on the command port, in order, up to the pass's end. -/
def drainTraffic (H : Handler) : Nat → State → List Request
  | 0, _ => []
  | fuel + 1, s =>
    match s.arbitrate.mode, s.arbitrate.cur with
    | .handler, some e =>
      H e s.arbitrate ++
        match runHandler s.arbitrate (H e s.arbitrate) with
        | some t =>
          match t.mode with
          | .check => drainTraffic H fuel t
          | .fault => []
          | .idle => []
          | .handler => []
        | none => []
    | .handler, none => []
    | .check, _ => []
    | .idle, _ => []
    | .fault, _ => []

/-- Requests as the port carries them. -/
def onPort (requests : List Request) : List PortItem := requests.map .command

/-- What follows an owner command: the drain pass that it started, or nothing. -/
def State.afterOwner (H : Handler) (fuel : Nat) (t : State) : Option State :=
  match t.mode with
  | .check => drain H fuel t
  | .idle => some t
  | .handler => some t
  | .fault => some t

/-- `advance_clock(n)` in IDLE as one function: the ADVANCE and the drain pass it starts (R136). -/
def advanceClock (H : Handler) (fuel : Nat) (n : U64) (s : State) : Option State :=
  (s.afterCommand (.advance n)).afterOwner H fuel

/-- One owner request with, for an ADVANCE, its whole drain pass (R226); in FAULT it is discarded, and in CHECK and HANDLER
the owner has no move (R6). -/
def ownerCommand (H : Handler) (fuel : Nat) (s : State) (r : Request) : Option State :=
  match s.mode with
  | .idle => (s.afterRequest r).afterOwner H fuel
  | .fault => some s
  | .check => none
  | .handler => none

/-- A run: owner requests in order, each ADVANCE followed by its whole drain pass (R226); nothing when a pass does not
end within the fuel. -/
def ownerRun (H : Handler) (fuel : Nat) : State → List Request → Option State
  | s, [] => some s
  | s, r :: rest => (ownerCommand H fuel s r).bind fun t => ownerRun H fuel t rest

/-- A handler that keeps the environment contract: each invocation issues a script that the contract allows, whether or
not the boundary crosses into vertical blank (R150, R170). -/
def Handler.KeepsContract (H : Handler) (p : Periods) (arming : HBlankArming) : Prop :=
  ∀ e s, ∃ (crossing : Bool) (script : Script), H e s = script.requests ∧ handlerContract p ⟨arming, crossing⟩ e script = true

end Sys2Proof.Machine
end

