-- ==== Sys2Proof/Machine/Flags.lean ====
section
/-! DEFINITION. The derived flags of the comparator and the arbiter (spec/10_state.md R30): combinational, recomputed from
the state, held nowhere. -/

namespace Sys2Proof.Machine

/-- `EMPTY` (R30). -/
def State.emptyFlag (s : State) : Bool := s.qEmpty

/-- `COUNT`: the number of pending entries, 0 .. 55 (R30). -/
def State.count (s : State) : Nat := s.pending.length

/-- `HEAD_VALID` (R30). -/
def State.headValid (s : State) : Bool := !s.qEmpty

/-- `HEAD_ORD`, meaningful iff `HEAD_VALID` (R30). -/
def State.headOrd (s : State) : Option SlotIndex := s.qHead.map Prod.fst

/-- `HEAD_EV`, meaningful iff `HEAD_VALID` (R30). -/
def State.headEv (s : State) : Option EventWord := s.headOrd.map fun i => (Event.ofOrd i).word

/-- `HEAD_DUE`, meaningful iff `HEAD_VALID` (R30). -/
def State.headDue (s : State) : Option U64 := s.qHead.map Prod.snd

/-- The comparator's test of a due cycle against the counter: unsigned, 64 bits, non-strict (R127). -/
def State.isDue (s : State) (d : U64) : Bool := d ≤ s.cycle

/-- `HEAD_IS_DUE = HEAD_VALID and (HEAD_DUE <=u cycle)` (R30, R127). -/
def State.headIsDue (s : State) : Bool :=
  match s.headDue with
  | some d => s.isDue d
  | none => false

/-- `due(i)`: the per-slot comparator (R30). -/
def State.due (s : State) (i : SlotIndex) : Bool :=
  match s.slot i with
  | some d => s.isDue d
  | none => false

end Sys2Proof.Machine
end

