-- ==== Sys2Proof/Machine/Status.lean ====
section
/-! DEFINITION. The output ports and the read-only status port (spec/10_state.md R33 to R39): observation functions of the
state. Reading is no command and changes nothing (R37, R56). -/

namespace Sys2Proof.Machine

/-- `disp_valid`: 1 iff a handler is running (R34). -/
def State.dispValid (s : State) : Bool := s.mode == .handler

/-- `DISP_EV`: the word in `cur`, meaningful iff `disp_valid` (R34; assumption 13). -/
def State.dispEv (s : State) : Option EventWord := if s.dispValid then s.curWord else none

/-- `HSEL`: one-hot over the ten event kinds (R35). -/
def State.hsel (s : State) : BitVec 10 :=
  match s.dispEv with
  | some w => 1#10 <<< (EventWord.kindField w).toNat
  | none => 0

/-- `cur_valid` (R27). -/
def State.curValid (s : State) : Bool := s.cur.isSome

/-- S1 STATUS (R38): MODE [1:0], EMPTY [2], HEAD_IS_DUE [3], CUR_VALID [4], zeros [7:5], COUNT [13:8], zeros [31:14]. -/
def State.statusWord (s : State) : BitVec 32 :=
  (0 : BitVec 18) ++ BitVec.ofNat 6 s.count ++ (0 : BitVec 3) ++ BitVec.ofBool s.curValid ++
    BitVec.ofBool s.headIsDue ++ BitVec.ofBool s.emptyFlag ++ s.mode.code

/-- S6 FEV (R38): `fev` masked to 0 while `fev_valid = 0`, and `fev_valid` in bit 16. -/
def State.fevWord (s : State) : BitVec 17 := BitVec.ofBool s.fevValid ++ (if s.fevValid then s.fev else 0)

/-- S8 PENDING (R38): bit `i` is `v[i]`. -/
def State.pendingBits (s : State) : BitVec 55 := BitVec.ofFnLE fun i => (s.slot i).isSome

/-- The status registers S0 to S9 (R38); the reader of S9 supplies a slot index (assumption 13). -/
inductive StatusReg where
  | cycle
  | status
  | headEv
  | headDue
  | curEv
  | fcode
  | fev
  | farg
  | pending
  | slotDue (i : SlotIndex)
  deriving DecidableEq, Repr

/-- A status register's value, zero-extended to 64 bits; a field that holds no value reads 0 (R38, decision D23). -/
def State.readStatus (s : State) : StatusReg → U64
  | .cycle => s.cycle
  | .status => s.statusWord.setWidth 64
  | .headEv => (s.headEv.getD 0).setWidth 64
  | .headDue => s.headDue.getD 0
  | .curEv => (s.curWord.getD 0).setWidth 64
  | .fcode => s.fcode.code.setWidth 64
  | .fev => s.fevWord.setWidth 64
  | .farg => s.farg
  | .pending => s.pendingBits.setWidth 64
  | .slotDue i => (s.slot i).getD 0

/-- A status register as an enclosing system reads it over a byte-addressed bus, `k` bytes of it: little-endian, the byte
with bits [7:0] first (R52). How many bytes a transfer takes is that system's; above the register's bits they are 0. -/
def State.statusBytes (s : State) (reg : StatusReg) (k : Nat) : List Byte := littleEndian k (s.readStatus reg).toNat

end Sys2Proof.Machine
end

