-- ==== Sys2Proof/Safety.lean ====
section
/-! DEFINITION. The invariant of the reachable states (spec/10_state.md R42), how a run ends
(spec/70_reset_and_hazards.md R226), and what is asked of clients (spec/42_event_kinds_and_clients.md R166, R167). -/

namespace Sys2Proof.Machine

/-- `mode = FAULT` iff `fcode != 0` (R28, R42 item 2). -/
abbrev State.FaultCodeAgrees (s : State) : Prop := s.mode = .fault ↔ s.fcode ≠ .none

/-- `cur_valid` is 1 in HANDLER and 0 in IDLE and CHECK; after a fault it keeps its value (R27, R42 item 3). -/
abbrev State.CurAgrees (s : State) : Prop :=
  (s.mode = .handler → s.cur.isSome = true) ∧ (s.mode = .idle → s.cur = none) ∧ (s.mode = .check → s.cur = none)

/-- A recorded event word is legal unless the fault is ILLEGAL_EVENT, and then it is illegal (R42 item 5, R186). -/
abbrev State.FevAgrees (s : State) : Prop :=
  s.fevValid = true → (EventWord.legal s.fev = true ↔ s.fcode ≠ .illegalEvent)

/-- Fields the fault entry does not fill read as reset leaves them (R28, R188). -/
abbrev State.FaultRecordAgrees (s : State) : Prop :=
  (s.fevValid = false → s.fev = 0) ∧ (s.fcode = .none → s.fevValid = false ∧ s.farg = 0)

/-- The invariant of every state reachable from reset (R42 items 2, 3 and 5, and R28). Items 1, 4 and 6 relate two
moments of a run and are stated over steps. -/
abbrev State.Inv (s : State) : Prop :=
  s.FaultCodeAgrees ∧ s.CurAgrees ∧ s.FevAgrees ∧ s.FaultRecordAgrees

/-! What a transition leaves unchanged. -/

/-- From `s` to `t` nothing changes but slot `i`: the frame of a command that only edits the store (R100). -/
abbrev State.OnlySlotChanges (i : SlotIndex) (s t : State) : Prop :=
  (∀ j, j ≠ i → t.slot j = s.slot j) ∧ t.cycle = s.cycle ∧ t.mode = s.mode ∧ t.cur = s.cur ∧ t.fcode = s.fcode ∧
    t.fev = s.fev ∧ t.fevValid = s.fevValid ∧ t.farg = s.farg ∧ t.port = s.port

/-- The store, `cur`, the fault record and the port are the same in `s` and `t`: the frame of a command that moves the
counter or the mode alone (R120). -/
abbrev State.SameStoreAndRecord (s t : State) : Prop :=
  (∀ j, t.slot j = s.slot j) ∧ t.fcode = s.fcode ∧ t.fev = s.fev ∧ t.fevValid = s.fevValid ∧ t.farg = s.farg ∧
    t.port = s.port

/-- `t` is `s` after the fault entry `raise F(e, a)`: the fault registers and the mode as R188 writes them, and every
other register as it was. -/
abbrev State.FaultedWith (f : FaultCode) (e : Option EventWord) (a : U64) (s t : State) : Prop :=
  t.mode = .fault ∧ t.fcode = f ∧ t.fevValid = e.isSome ∧ t.fev = e.getD 0 ∧ t.farg = a ∧ t.cycle = s.cycle ∧
    (∀ j, t.slot j = s.slot j) ∧ t.cur = s.cur ∧ t.port = s.port

/-- What the block's own move leaves on the port: a transaction without a command is over, and anything else stays (R33,
assumption 2). -/
def State.portLeft (s : State) : List PortItem :=
  match s.port with
  | [] => []
  | .quiet :: rest => rest
  | .command r :: rest => .command r :: rest
  | .reset :: rest => .reset :: rest

/-- A command is accepted, not held and not discarded: IDLE or HANDLER (R33, R202). -/
abbrev State.Accepts (s : State) : Prop := s.mode = .idle ∨ s.mode = .handler

/-- Every pending entry is due strictly in the future: what holds whenever a drain pass ends normally (R132). -/
abbrev State.AllFuture (s : State) : Prop := ∀ i : SlotIndex, s.due i = false

/-- A run ends well in IDLE (R226). -/
def State.endsWell (s : State) : Bool := s.mode == .idle

/-- A run ends badly in FAULT (R226). -/
def State.endsBadly (s : State) : Bool := s.mode == .fault

/-- The pass from `s` ends: only finitely many dispatches occur (R166). -/
def PassEnds (H : Handler) (s : State) : Prop := ∃ fuel t, drain H fuel s = some t

/-- From `s` the arbiter starts the handler of `e`, whose requests leave the block in `t` (R129, R130, R136). -/
abbrev HandlerTurn (H : Handler) (s : State) (e : Event) (t : State) : Prop :=
  s.arbitrate.mode = .handler ∧ s.arbitrate.cur = some e ∧ runHandler s.arbitrate (H e s.arbitrate) = some t

/-- The pass from `s` reaches `t` after whole turns, each of a handler that returned (R136). -/
inductive PassReaches (H : Handler) : State → State → Prop
  | here (s : State) : PassReaches H s s
  | turn (s u t : State) (e : Event) (hturn : HandlerTurn H s e u) (hm : u.mode = .check)
      (ht : PassReaches H u t) : PassReaches H s t

/-- Clients that keep `perpetual` armed and make no malformed request (R167, R212): every invocation issues a script that
is well ended, carries legal events, never aborts and never cancels `perpetual`, and the handler of `perpetual` schedules
it again. -/
def Handler.KeepsArmed (H : Handler) (perpetual : Event) : Prop :=
  ∀ e s, ∃ script : Script, H e s = script.requests ∧ wellEnded script = true ∧ aborts script = false ∧
    (∀ i ∈ script, i.wellFormed = true) ∧ (∀ i ∈ script, cancels perpetual i = false) ∧
    (e = perpetual → scheduled perpetual script ≠ [])

end Sys2Proof.Machine
end

