-- ==== Sys2Proof/Certificates/Slice0/Obligations.lean ====
section
/-! DEFINITION. The statements about the block, from the spec's numbered rules. -/

open Sys2Proof Sys2Proof.Machine

/-! Reset. -/

/-- R41: the value of every register after reset, and of the derived flags and ports. -/
def Obligations.ResetLeavesStatedValues : Prop :=
  State.reset.cycle = 0 ∧ (∀ i, State.reset.slot i = none) ∧ State.reset.mode = .idle ∧ State.reset.cur = none ∧
    State.reset.curValid = false ∧ State.reset.fcode = .none ∧ State.reset.fevValid = false ∧ State.reset.fev = 0 ∧
    State.reset.farg = 0 ∧ State.reset.emptyFlag = true ∧ State.reset.count = 0 ∧ State.reset.headValid = false ∧
    State.reset.headIsDue = false ∧ State.reset.dispValid = false ∧ State.reset.hsel = 0 ∧ State.reset.cmdReady = true

/-- R220: asserting `reset`, in any mode, writes every register; what is presented next stays (assumption 1). -/
def Obligations.ResetInputRestoresReset : Prop :=
  ∀ (s : State) (rest : List PortItem), s.port = .reset :: rest →
    ∃ t, step s = .next t ∧ t.cycle = 0 ∧ (∀ i, t.slot i = none) ∧ t.mode = .idle ∧ t.cur = none ∧ t.fcode = .none ∧
      t.fevValid = false ∧ t.fev = 0 ∧ t.farg = 0 ∧ t.port = rest

/-- R42: the invariant holds right after reset. -/
def Obligations.ResetMeetsInvariant : Prop := State.reset.Inv

/-! The step and the command port. -/

/-- R32, R81: a step with a decodable command on a ready port is that command run on the state without it. The model's
own reading of the port as a list of items is assumption 1. -/
def Obligations.StepRunsDecodedCommand : Prop :=
  ∀ (s : State) (r : Request) (rest : List PortItem) (i : Instr), s.port = .command r :: rest → s.mode ≠ .check →
    decode r = .ok i → step s = exec i { s with port := rest }

/-- R79, R82: one word of every command, and words that are no command, as the spec writes them out. That CANCEL and
DONE carry the operand they ignore is assumption 16. -/
def Obligations.KnownWordsDecode : Prop :=
  decode ⟨0x10002000, 0x28⟩ = .ok (.schedule 0x2000 40) ∧ decode ⟨0x20003000, 0xDEAD⟩ = .ok (.cancel 0x3000 0xDEAD) ∧
    decode ⟨0x30003000, 0⟩ = .ok (.runNow 0x3000 0) ∧ decode ⟨0x40000000, 0xE⟩ = .ok (.advance 14) ∧
    decode ⟨0x50000000, 0⟩ = .ok (.done 0) ∧ decode ⟨0x60000000, 3⟩ = .ok (.abort 3) ∧
    decode ⟨0x00000000, 0⟩ = .error .reservedOp ∧ decode ⟨0xF0002000, 0⟩ = .error .reservedOp ∧
    decode ⟨0x10012000, 0x28⟩ = .error .reservedBits ∧ decode ⟨0x40002000, 5⟩ = .error .eventFieldNotZero

/-- R33: when the port is ready; a command waits unchanged in CHECK, which one ARBITRATE leaves; in FAULT every
command is accepted and discarded. The port as a list is assumption 1. -/
def Obligations.PortReadinessRule : Prop :=
  ∀ s : State,
    (s.cmdReady = true ↔ s.mode = .idle ∨ s.mode = .handler ∨ s.mode = .fault) ∧
    ∀ (r : Request) (rest : List PortItem), s.port = .command r :: rest →
      (s.mode = .check → step s = .next s.arbitrate ∧ s.arbitrate.port = s.port ∧ s.arbitrate.mode ≠ .check) ∧
      (s.mode = .fault → step s = .next { s with port := rest })

/-- R208, R232: with nothing presented the block waits, and only the arbiter moves by itself. That a transaction
without a command is a step is the model's (assumption 2). The port as a list is assumption 1. -/
def Obligations.BlockMovesByItselfOnlyInCheck : Prop :=
  ∀ s : State,
    (s.port = [] → (s.mode ≠ .check → step s = .next s) ∧ (s.mode = .check → step s = .next s.arbitrate)) ∧
    ∀ rest, s.port = .quiet :: rest →
      (s.mode ≠ .check → step s = .next { s with port := rest }) ∧
      (s.mode = .check → step s = .next { s.arbitrate with port := rest })

/-- R81, R189, R129, R220: every pair of command word and operand has an outcome in every mode where it is accepted,
in CHECK the arbiter moves, and reset acts in any mode. That a fault is a next state is the model's reading
(assumption 6), that a transaction without a command is a step its choice (assumption 2), and the port as a list
assumption 1. -/
def Obligations.StepAlwaysAnswersNext : Prop := ∀ s : State, ∃ t, step s = .next t

/-- R81, R193: the order of the tests on an accepted command, each with its record; what passes them all runs its own
rule. -/
def Obligations.AcceptanceFollowsCheckOrder : Prop :=
  ∀ (s : State) (r : Request),
    (s.mode = .fault → s.acceptRequest r = .next s) ∧
    (s.Accepts →
      let op := (r.cmd.extractLsb' 28 4).toNat
      let ev : EventWord := r.cmd.extractLsb' 0 16
      if r.cmd.extractLsb' 16 12 ≠ 0 ∨ op = 0 ∨ 7 ≤ op then
        ∃ t, s.acceptRequest r = .next t ∧ State.FaultedWith .illegalCommand none (r.cmd.setWidth 64) s t
      else if op ≤ 3 ∧ EventWord.legal ev = false then
        ∃ t, s.acceptRequest r = .next t ∧ State.FaultedWith .illegalEvent (some ev) r.arg s t
      else if 4 ≤ op ∧ ev ≠ 0 then
        ∃ t, s.acceptRequest r = .next t ∧ State.FaultedWith .illegalCommand none (r.cmd.setWidth 64) s t
      else if 5 ≤ op ∧ s.mode = .idle then
        ∃ t, s.acceptRequest r = .next t ∧ State.FaultedWith .protocol none (r.cmd.setWidth 64) s t
      else ∃ i : Instr, decode r = .ok i ∧ i.wellFormed = true ∧ s.acceptRequest r = exec i s)

/-! The commands. Each statement says where the command completes, with what result, and what it leaves unchanged. -/

/-- R101: SCHEDULE. -/
def Obligations.ScheduleInsertsDueCycle : Prop :=
  ∀ (s : State) (e : Event) (delay : U64), s.Accepts →
    decode ⟨0x10000000 ||| e.word.setWidth 32, delay⟩ = .ok (.schedule e.word delay) ∧
    (s.cycle.toNat + delay.toNat < 2 ^ 64 →
      ∃ t due, exec (.schedule e.word delay) s = .next t ∧ due.toNat = s.cycle.toNat + delay.toNat ∧
        t.slot e.ord = some due ∧ State.OnlySlotChanges e.ord s t ∧ t.emptyFlag = false ∧
        t.count = s.count + (if (s.slot e.ord).isSome then 0 else 1)) ∧
    (2 ^ 64 ≤ s.cycle.toNat + delay.toNat →
      ∃ t, exec (.schedule e.word delay) s = .next t ∧ State.FaultedWith .dueOverflow (some e.word) delay s t)

/-- R102: CANCEL. That the command carries its ignored operand is assumption 16. -/
def Obligations.CancelRemovesEntry : Prop :=
  ∀ (s : State) (e : Event) (arg : U64), s.Accepts →
    decode ⟨0x20000000 ||| e.word.setWidth 32, arg⟩ = .ok (.cancel e.word arg) ∧
    ∃ t, exec (.cancel e.word arg) s = .next t ∧ t.slot e.ord = none ∧ State.OnlySlotChanges e.ord s t ∧
      (s.slot e.ord = none → t = s) ∧ t.count + (if (s.slot e.ord).isSome then 1 else 0) = s.count

/-- R103: RUN_NOW. That the command carries its ignored operand is assumption 16. -/
def Obligations.RunNowInsertsAtCycle : Prop :=
  ∀ (s : State) (e : Event) (arg : U64), s.Accepts →
    decode ⟨0x30000000 ||| e.word.setWidth 32, arg⟩ = .ok (.runNow e.word arg) ∧
    ∃ t, exec (.runNow e.word arg) s = .next t ∧ t.slot e.ord = some s.cycle ∧ State.OnlySlotChanges e.ord s t ∧
      t.emptyFlag = false ∧ t.headIsDue = true ∧ t.count = s.count + (if (s.slot e.ord).isSome then 0 else 1)

/-- R104: `RUN_NOW e` and `SCHEDULE e, 0` produce the same state, and neither faults. What a command applied in CHECK
does, where none is accepted, is the model's (assumption 5). -/
def Obligations.RunNowIsScheduleZero : Prop :=
  ∀ (s : State) (e : Event) (arg : U64), exec (.runNow e.word arg) s = exec (.schedule e.word 0) s ∧
    ∃ t, exec (.schedule e.word 0) s = .next t ∧ t.mode = s.mode

/-- R121: ADVANCE in IDLE. -/
def Obligations.AdvanceStartsPass : Prop :=
  ∀ (s : State) (n : U64), s.mode = .idle →
    decode ⟨0x40000000, n⟩ = .ok (.advance n) ∧
    (s.cycle.toNat + n.toNat < 2 ^ 64 →
      ∃ t, exec (.advance n) s = .next t ∧ t.cycle.toNat = s.cycle.toNat + n.toNat ∧ t.mode = .check ∧
        t.cur = s.cur ∧ State.SameStoreAndRecord s t) ∧
    (2 ^ 64 ≤ s.cycle.toNat + n.toNat →
      ∃ t, exec (.advance n) s = .next t ∧ State.FaultedWith .cycleOverflow none n s t)

/-- R122: ADVANCE in HANDLER, with the running handler's event in `cur`. -/
def Obligations.AdvanceInHandlerOnlyAdds : Prop :=
  ∀ (s : State) (e : Event) (n : U64), s.mode = .handler → s.cur = some e →
    (s.cycle.toNat + n.toNat < 2 ^ 64 →
      ∃ t, exec (.advance n) s = .next t ∧ t.cycle.toNat = s.cycle.toNat + n.toNat ∧ t.mode = .handler ∧
        t.cur = some e ∧ State.SameStoreAndRecord s t) ∧
    (2 ^ 64 ≤ s.cycle.toNat + n.toNat →
      ∃ t, exec (.advance n) s = .next t ∧ State.FaultedWith .cycleOverflow (some e.word) n s t)

/-- R124: DONE. That the command carries its ignored operand is assumption 16. -/
def Obligations.DoneReturnsToArbiter : Prop :=
  ∀ (s : State) (arg : U64),
    decode ⟨0x50000000, arg⟩ = .ok (.done arg) ∧
    (s.mode = .handler →
      ∃ t, exec (.done arg) s = .next t ∧ t.mode = .check ∧ t.cur = none ∧ t.cycle = s.cycle ∧
        State.SameStoreAndRecord s t ∧ t.dispValid = false ∧ t.hsel = 0) ∧
    (s.mode = .idle →
      ∃ t, exec (.done arg) s = .next t ∧ State.FaultedWith .protocol none 0x50000000 s t)

/-- R125: ABORT, whose effect in HANDLER is the fault entry. -/
def Obligations.AbortRecordsHandlerFault : Prop :=
  ∀ (s : State) (info : U64),
    decode ⟨0x60000000, info⟩ = .ok (.abort info) ∧
    (∀ e : Event, s.mode = .handler → s.cur = some e →
      ∃ t, exec (.abort info) s = .next t ∧ State.FaultedWith .handlerAbort (some e.word) info s t) ∧
    (s.mode = .idle →
      ∃ t, exec (.abort info) s = .next t ∧ State.FaultedWith .protocol none 0x60000000 s t)

/-- R186: where SCHEDULE, CANCEL and RUN_NOW trap on an illegal event word. -/
def Obligations.IllegalEventFaults : Prop :=
  ∀ (s : State) (ev : EventWord) (arg : U64), s.Accepts → EventWord.legal ev = false →
    ∀ i ∈ [Instr.schedule ev arg, Instr.cancel ev arg, Instr.runNow ev arg],
      ∃ t, exec i s = .next t ∧ State.FaultedWith .illegalEvent (some ev) arg s t

/-- R189: in FAULT nothing but the reset input changes a register. That a transaction without a command is a step, and
that nothing happens in it, is the model's (assumption 2); the port as a list is assumption 1. -/
def Obligations.FaultModeDiscards : Prop :=
  ∀ s : State, s.mode = .fault →
    (∀ i, exec i s = .next s) ∧ (s.port = [] → step s = .next s) ∧
    ∀ item rest, s.port = item :: rest → item ≠ .reset → step s = .next { s with port := rest }

/-! Store edits in sequence. -/

/-- R64: issuing CANCEL twice has the effect of issuing it once. In CHECK, where no command is accepted, that rests on
assumption 5. -/
def Obligations.CancelTwiceIsCancelOnce : Prop :=
  ∀ (s t : State) (ev : EventWord) (arg arg' : U64),
    exec (.cancel ev arg) s = .next t → exec (.cancel ev arg') t = .next t

/-- R105, R86: `SCHEDULE e, d` has the same effect as `CANCEL e` followed by `SCHEDULE e, d`. -/
def Obligations.ScheduleDisplacesPending : Prop :=
  ∀ (s : State) (e : Event) (d arg : U64), s.Accepts → s.cycle.toNat + d.toNat < 2 ^ 64 →
    ∃ u t, exec (.cancel e.word arg) s = .next u ∧ exec (.schedule e.word d) u = .next t ∧
      exec (.schedule e.word d) s = .next t

/-- R108: inside its own handler `CANCEL e` is a no-op, `SCHEDULE e, d` makes the one entry for `e`, and a later CANCEL
removes it. -/
def Obligations.RearmThenCancelLeavesNotPending : Prop :=
  ∀ (s : State) (e : Event) (d arg : U64), s.mode = .handler → s.cur = some e → s.slot e.ord = none →
    s.cycle.toNat + d.toNat < 2 ^ 64 →
    exec (.cancel e.word arg) s = .next s ∧
      ∃ t, exec (.schedule e.word d) s = .next t ∧ t.slot e.ord = some (s.cycle + d) ∧
        exec (.cancel e.word arg) t = .next s

/-! The arbiter. In CHECK a step is one ARBITRATE whatever is presented but reset: nothing, a transaction without a command
(assumption 2), or a command, which waits (R33). The port as a list is assumption 1. -/

/-- R133, R183: an ARBITRATE that finds the store empty raises QUEUE_EMPTY, and no other does. -/
def Obligations.EmptyStoreFaults : Prop :=
  ∀ s : State, s.mode = .check → (∀ rest, s.port ≠ .reset :: rest) →
    ∃ t, step s = .next t ∧
      ((∀ i, s.slot i = none) → State.FaultedWith .queueEmpty none s.cycle { s with port := s.portLeft } t) ∧
      ((∃ i d, s.slot i = some d) → t.mode ≠ .fault)

/-- R126, R128, R129, R198: the entry with the least due cycle, and among equals the lowest ordinal, is popped when it is
due and its event handed out; nothing else changes. -/
def Obligations.DispatchPopsHead : Prop :=
  ∀ (s : State) (i : SlotIndex) (d : U64), s.mode = .check → (∀ rest, s.port ≠ .reset :: rest) →
    s.slot i = some d → d ≤ s.cycle →
    (∀ j d', s.slot j = some d' → d < d' ∨ (d = d' ∧ i ≤ j)) →
    ∃ t, step s = .next t ∧ t.mode = .handler ∧ t.cur = some (Event.ofOrd i) ∧ t.slot i = none ∧
      (∀ j, j ≠ i → t.slot j = s.slot j) ∧ t.cycle = s.cycle ∧ t.fcode = s.fcode ∧ t.fev = s.fev ∧
      t.fevValid = s.fevValid ∧ t.farg = s.farg ∧ t.port = s.portLeft ∧ t.dispEv = some (Event.ofOrd i).word

/-- R132: the pass ends at an ARBITRATE whose store is not empty and has every due cycle in the future. -/
def Obligations.PassEndsWhenHeadIsFuture : Prop :=
  ∀ s : State, s.mode = .check → (∀ rest, s.port ≠ .reset :: rest) → (∃ i d, s.slot i = some d) →
    (∀ j d, s.slot j = some d → s.cycle < d) →
    ∃ t, step s = .next t ∧ t.mode = .idle ∧ t.cycle = s.cycle ∧ t.cur = s.cur ∧
      State.SameStoreAndRecord { s with port := s.portLeft } t ∧ t.AllFuture

/-- R126, R128: under every tie-break that R126 allows, an ARBITRATE dispatches only an entry that is due and that no
entry is due before, ends the pass only when every entry is in the future, and faults only on an empty store. The
tie-break as a parameter is assumption 7. -/
def Obligations.ArbiterUnderAnyTie : Prop :=
  ∀ (tie : TiePolicy) (s : State), tie.Consistent →
    ((s.arbitrateWith tie).mode = .handler →
      ∃ i d, s.slot i = some d ∧ d ≤ s.cycle ∧ (∀ j d', s.slot j = some d' → d ≤ d') ∧
        (s.arbitrateWith tie).cur = some (Event.ofOrd i) ∧ (s.arbitrateWith tie).slot i = none) ∧
    ((s.arbitrateWith tie).mode = .idle → ∀ j d, s.slot j = some d → s.cycle < d) ∧
    ((s.arbitrateWith tie).mode = .fault ↔ ∀ i, s.slot i = none) ∧ (s.arbitrateWith tie).mode ≠ .check

/-- R134: while a pass is in progress a due entry stays due, unless its own event is cancelled or scheduled anew or its
handler is started, and the pass does not return to IDLE meanwhile. -/
def Obligations.DueEntrySurvivesUntilDispatched : Prop :=
  ∀ (s t : State) (i : SlotIndex), s.mode = .check ∨ s.mode = .handler → s.due i = true → step s = .next t →
    (∀ rest, s.port ≠ .reset :: rest) →
    t.mode ≠ .idle ∧
      (t.due i = true ∨ (s.mode = .check ∧ t.mode = .handler ∧ t.cur = some (Event.ofOrd i)) ∨
        ∃ r rest d, s.mode = .handler ∧ s.port = .command r :: rest ∧
          (decode r = .ok (.cancel (Event.ofOrd i).word d) ∨ decode r = .ok (.schedule (Event.ofOrd i).word d)))

/-! Rules about every step: of a port that is a list (assumption 1), on which a transaction without a command is a step too
(assumption 2). -/

/-- R135: no second event is dispatched until the running handler has issued DONE. -/
def Obligations.HandlersDoNotNest : Prop :=
  ∀ s t : State, s.mode = .handler → step s = .next t → (∀ rest, s.port ≠ .reset :: rest) →
    (t.cur = s.cur ∧ (t.mode = .handler ∨ t.mode = .fault)) ∨
      (t.cur = none ∧ t.mode = .check ∧ ∃ r rest arg, s.port = .command r :: rest ∧ decode r = .ok (.done arg))

/-- R26: the transitions of `mode`, each by what the rule names. -/
def Obligations.ModeTransitionsAreListed : Prop :=
  ∀ s t : State, step s = .next t → (∀ rest, s.port ≠ .reset :: rest) → t.mode ≠ s.mode →
    (s.mode = .idle ∧ t.mode = .check ∧ ∃ r rest n, s.port = .command r :: rest ∧ decode r = .ok (.advance n)) ∨
    (s.mode = .check ∧ t.mode = .handler ∧ s.headIsDue = true ∧ t.cur.isSome = true) ∨
    (s.mode = .check ∧ t.mode = .idle ∧ s.headValid = true ∧ s.headIsDue = false) ∨
    (s.mode = .handler ∧ t.mode = .check ∧ ∃ r rest arg, s.port = .command r :: rest ∧ decode r = .ok (.done arg)) ∨
    (s.mode ≠ .fault ∧ t.mode = .fault ∧ t.fcode ≠ .none)

/-- R21: only ADVANCE writes the counter, by an exact addition, so it never decreases between resets. -/
def Obligations.OnlyAdvanceMovesCounter : Prop :=
  ∀ s t : State, step s = .next t → (∀ rest, s.port ≠ .reset :: rest) →
    t.cycle = s.cycle ∨
      ∃ r rest n, s.Accepts ∧ s.port = .command r :: rest ∧ decode r = .ok (.advance n) ∧
        t.cycle.toNat = s.cycle.toNat + n.toNat

/-- R23, R42 item 6: who sets and who clears `v[i]`, and that an entry is never written with a due cycle before the
counter. -/
def Obligations.StoreWritersAreListed : Prop :=
  ∀ (s t : State) (i : SlotIndex), step s = .next t → (∀ rest, s.port ≠ .reset :: rest) → t.slot i ≠ s.slot i →
    (∃ r rest d due, s.Accepts ∧ s.port = .command r :: rest ∧
      decode r = .ok (.schedule (Event.ofOrd i).word d) ∧ t.slot i = some due ∧ due.toNat = s.cycle.toNat + d.toNat) ∨
    (∃ r rest arg, s.Accepts ∧ s.port = .command r :: rest ∧ decode r = .ok (.runNow (Event.ofOrd i).word arg) ∧
      t.slot i = some s.cycle) ∨
    (∃ r rest arg, s.Accepts ∧ s.port = .command r :: rest ∧ decode r = .ok (.cancel (Event.ofOrd i).word arg) ∧
      t.slot i = none) ∨
    (s.mode = .check ∧ t.mode = .handler ∧ s.due i = true ∧ t.cur = some (Event.ofOrd i) ∧ t.slot i = none)

/-- R181: every entry to FAULT has one of the seven causes, with the record the table gives it. For an ABORT in HANDLER that
is `fev_valid = 1` and the event in `cur` (R184); that `fev_valid` is 0 there when `cur` holds no event, a case no run
reaches, is the model's reading (assumption 12). -/
def Obligations.EveryFaultHasItsCause : Prop :=
  ∀ s t : State, step s = .next t → s.mode ≠ .fault → t.mode = .fault →
    (s.mode = .check ∧ (∀ i, s.slot i = none) ∧ t.fcode = .queueEmpty ∧ t.fevValid = false ∧ t.farg = s.cycle) ∨
    ∃ r rest, s.port = .command r :: rest ∧ s.Accepts ∧
      ((s.mode = .handler ∧ ∃ info, decode r = .ok (.abort info) ∧ t.fcode = .handlerAbort ∧
          t.fevValid = s.cur.isSome ∧ (∀ e, s.cur = some e → t.fev = e.word) ∧ t.farg = info) ∨
        ((∃ why, decode r = .error why) ∧ t.fcode = .illegalCommand ∧ t.fevValid = false ∧
          t.farg = r.cmd.setWidth 64) ∨
        (∃ i : Instr, decode r = .ok i ∧ i.wellFormed = false ∧ t.fcode = .illegalEvent ∧ t.fevValid = true ∧
          t.fev = r.cmd.extractLsb' 0 16 ∧ t.farg = r.arg) ∨
        (s.mode = .idle ∧ (decode r = .ok (.done r.arg) ∨ decode r = .ok (.abort r.arg)) ∧ t.fcode = .protocol ∧
          t.fevValid = false ∧ t.farg = r.cmd.setWidth 64) ∨
        (∃ n : U64, decode r = .ok (.advance n) ∧ 2 ^ 64 ≤ s.cycle.toNat + n.toNat ∧ t.fcode = .cycleOverflow ∧
          (s.mode = .idle → t.fevValid = false) ∧
          (∀ e, s.mode = .handler → s.cur = some e → t.fevValid = true ∧ t.fev = e.word) ∧ t.farg = n) ∨
        (∃ (e : Event) (d : U64), decode r = .ok (.schedule e.word d) ∧ 2 ^ 64 ≤ s.cycle.toNat + d.toNat ∧
          t.fcode = .dueOverflow ∧ t.fevValid = true ∧ t.fev = e.word ∧ t.farg = d))

/-- R12, R192: a step that faults changes nothing but the fault registers and the mode. -/
def Obligations.FaultingStepChangesOnlyRecord : Prop :=
  ∀ s t : State, step s = .next t → s.mode ≠ .fault → t.mode = .fault →
    t.cycle = s.cycle ∧ (∀ i, t.slot i = s.slot i) ∧ t.cur = s.cur

/-- R42 items 2, 3 and 5: every step keeps the invariant, from every state that meets it. -/
def Obligations.StepKeepsInvariant : Prop :=
  ∀ s t : State, s.Inv → step s = .next t → t.Inv

/-! Encodings. -/

/-- R73, R74: the legal event words are exactly those of the 55 slots. The counts behind them are the spec's own
presumption (assumption 9). -/
def Obligations.LegalWordsAreTheTable : Prop :=
  ∀ w : EventWord, EventWord.legal w = true ↔ ∃ i : SlotIndex, (Event.ofOrd i).word = w

/-- R76: ordinals and event words are ordered alike, so the 80-bit keys `x[i] ++ ev(i)` order entries as `QHead()` does. -/
def Obligations.OrdinalOrderIsWordOrder : Prop :=
  ∀ e f : Event, (e.ord < f.ord ↔ e.word < f.word) ∧
    ∀ d d' : U64, d ++ e.word < d' ++ f.word ↔ d < d' ∨ (d = d' ∧ e.ord < f.ord)

/-- R77 to R79: decoding an encoded command gives it back, every operand at every value. That CANCEL, RUN_NOW and DONE
carry the operand they ignore is assumption 16. -/
def Obligations.DecodeEncodeRoundTrip : Prop := ∀ i : Instr, decode (encode i) = .ok i

/-- R77, R82: a request that decodes is the encoding of what it decodes to, so each command has one request. For
CANCEL, RUN_NOW and DONE that is so because the model has them carry the operand they ignore (assumption 16). -/
def Obligations.EncodeDecodeRoundTrip : Prop :=
  ∀ (r : Request) (i : Instr), decode r = .ok i → encode i = r

/-- R52: a serialised command reads back, and the bytes after it are left. That CMD comes before ARG is the model's
choice (assumption 8). That every command carries its whole operand is assumption 16. -/
def Obligations.SerialisedCommandRoundTrip : Prop :=
  ∀ (i : Instr) (rest : List Byte), decodeBytes ((encode i).bytes ++ rest) = .ok (i, rest)

/-- R79: a request decodes exactly when its word selects a row of the opcode table, and to that row's command. -/
def Obligations.TableRowsDecode : Prop :=
  ∀ r : Request,
    (∀ row ∈ opcodeTable, row.selectedBy r.cmd = true → ∃ i : Instr, decode r = .ok i ∧ i.mnemonic = row.mnemonic) ∧
    ∀ i : Instr, decode r = .ok i → ∃ row ∈ opcodeTable, row.selectedBy r.cmd = true ∧ row.mnemonic = i.mnemonic

/-- R85: what the assembler emits for each statement. -/
def Obligations.AssemblerEmitsEncodings : Prop :=
  ∀ (e : Event) (x : U64),
    (AsmStatement.schedule e x).assemble = [⟨0x10000000 ||| e.word.setWidth 32, x⟩] ∧
    (AsmStatement.cancel e).assemble = [⟨0x20000000 ||| e.word.setWidth 32, 0⟩] ∧
    (AsmStatement.runNow e).assemble = [⟨0x30000000 ||| e.word.setWidth 32, 0⟩] ∧
    (AsmStatement.advance x).assemble = [⟨0x40000000, x⟩] ∧
    AsmStatement.done.assemble = [⟨0x50000000, 0⟩] ∧
    (AsmStatement.abort x).assemble = [⟨0x60000000, x⟩] ∧
    AsmStatement.drain.assemble = (AsmStatement.advance 0).assemble ∧
    (AsmStatement.reschedule e x).assemble = (AsmStatement.cancel e).assemble ++ (AsmStatement.schedule e x).assemble

/-! Flags and ports. -/

/-- R30: the derived flags as facts about the slots. -/
def Obligations.DerivedFlagsFollowStore : Prop :=
  ∀ s : State,
    (s.emptyFlag = true ↔ ∀ i, s.slot i = none) ∧
    s.count = (Finset.univ.filter fun i : SlotIndex => (s.slot i).isSome = true).card ∧
    s.headValid = !s.emptyFlag ∧
    (∀ i, s.headOrd = some i ↔
      ∃ d, s.slot i = some d ∧ ∀ j d', s.slot j = some d' → d < d' ∨ (d = d' ∧ i ≤ j)) ∧
    (∀ i, s.headOrd = some i → s.headEv = some (Event.ofOrd i).word ∧ s.headDue = s.slot i) ∧
    (∀ i, s.due i = true ↔ ∃ d, s.slot i = some d ∧ d ≤ s.cycle) ∧
    (s.headIsDue = true ↔ s.headValid = true ∧ ∃ d, s.headDue = some d ∧ d ≤ s.cycle) ∧
    (s.headIsDue = true ↔ ∃ i, s.due i = true)

/-- R38: every field of the status registers S0 to S9. -/
def Obligations.StatusPortShowsState : Prop :=
  ∀ s : State,
    s.readStatus .cycle = s.cycle ∧
    (s.readStatus .status).extractLsb' 0 2 = s.mode.code ∧
    (s.readStatus .status).getLsbD 2 = s.emptyFlag ∧
    (s.readStatus .status).getLsbD 3 = s.headIsDue ∧
    (s.readStatus .status).getLsbD 4 = s.cur.isSome ∧
    (s.readStatus .status).extractLsb' 5 3 = 0 ∧
    ((s.readStatus .status).extractLsb' 8 6).toNat = s.count ∧
    (s.readStatus .status).extractLsb' 14 18 = 0 ∧
    (∀ i, s.headOrd = some i →
      s.readStatus .headEv = (Event.ofOrd i).word.setWidth 64 ∧ s.slot i = some (s.readStatus .headDue)) ∧
    (s.headValid = false → s.readStatus .headEv = 0 ∧ s.readStatus .headDue = 0) ∧
    (∀ e, s.cur = some e → s.readStatus .curEv = e.word.setWidth 64) ∧ (s.cur = none → s.readStatus .curEv = 0) ∧
    s.readStatus .fcode = s.fcode.code.setWidth 64 ∧
    (s.readStatus .fev).extractLsb' 0 16 = (if s.fevValid then s.fev else 0) ∧
    (s.readStatus .fev).getLsbD 16 = s.fevValid ∧
    s.readStatus .farg = s.farg ∧
    (∀ i : SlotIndex, (s.readStatus .pending).getLsbD i = (s.slot i).isSome) ∧
    (∀ i d, s.slot i = some d → s.readStatus (.slotDue i) = d) ∧
    (∀ i, s.slot i = none → s.readStatus (.slotDue i) = 0)

/-- R34, R35: the dispatch port and the one-hot handler select follow `mode` and the kind of `cur`. That no line is 1
in HANDLER while `cur` holds no value, a case no run reaches, is the model's (assumption 13). -/
def Obligations.HandlerSelectIsOneHot : Prop :=
  ∀ s : State,
    (s.dispValid = true ↔ s.mode = .handler) ∧
    (∀ e, s.mode = .handler → s.cur = some e → s.dispEv = some e.word) ∧
    (∀ e : Event, (e.word.extractLsb' 12 4).toNat < 10) ∧
    ∀ k : Fin 10, s.hsel.getLsbD k = true ↔
      s.mode = .handler ∧ ∃ e, s.cur = some e ∧ (e.word.extractLsb' 12 4).toNat = k.val

/-! Whole drain passes, runs, and the environment's contract. -/

/-- R136: the pass as one function and the pass step by step agree: with the handlers' requests on the port, the steps
reach the state in which the function ends. The port as a list is assumption 1, a handler as a finite list assumption
15. -/
def Obligations.BigStepMatchesSteps : Prop :=
  ∀ (H : Handler) (fuel : Nat) (s t : State), s.mode = .check → s.port = [] → drain H fuel s = some t →
    ∃ k, Sys2Proof.core.run k { s with port := onPort (drainTraffic H fuel s) } = .next t

/-- R132, R42 item 4: a pass that returns to IDLE leaves a non-empty store whose every entry is in the future,
whatever the handlers did; a pass that ends otherwise ends in FAULT. A handler as a finite list of requests, and where
the pass has no end, is assumption 15. -/
def Obligations.PassEndingInIdleIsComplete : Prop :=
  ∀ (H : Handler) (fuel : Nat) (s t : State), drain H fuel s = some t →
    (t.mode = .idle ∧ t.emptyFlag = false ∧ t.AllFuture) ∨ t.mode = .fault

/-- R129: with handlers that only issue DONE, a pass over `k` entries makes at most `k` dispatches and then ends, in
IDLE with the future entries left or in QUEUE_EMPTY with none. A handler as a finite list of requests is assumption
15, that DONE carries an operand assumption 16. -/
def Obligations.DoneOnlyPassEnds : Prop :=
  ∀ (s : State) (arg : U64), s.mode = .check →
    ∃ t, drain (fun _ _ => [encode (.done arg)]) (s.count + 1) s = some t ∧ t.cycle = s.cycle ∧
      (∀ i, t.slot i = if s.due i then none else s.slot i) ∧
      ((t.mode = .idle ∧ ∃ i, (t.slot i).isSome = true) ∨
        (t.mode = .fault ∧ t.fcode = .queueEmpty ∧ ∀ i, t.slot i = none))

/-- R167, R183, R212: clients that make no malformed request and keep one perpetual event armed can fault the block
only by running out of the counter's range. A handler as a finite list of requests, and where the pass has no end, is
assumption 15. -/
def Obligations.ArmedPassFaultsOnlyOnOverflow : Prop :=
  ∀ (H : Handler) (perpetual : Event) (fuel : Nat) (s t : State), H.KeepsArmed perpetual → s.mode = .check →
    (s.slot perpetual.ord).isSome = true → drain H fuel s = some t →
    (t.mode = .idle ∧ (t.slot perpetual.ord).isSome = true) ∨
      (t.mode = .fault ∧ (t.fcode = .cycleOverflow ∨ t.fcode = .dueOverflow))

/-- R200: a pass that faults does so on an empty store, or inside a handler that one of its turns started, whose event
then stays in `cur`; whatever the handlers put on the port, undecodable words among it (assumption 15). -/
def Obligations.PassFaultedInHandlerKeepsCur : Prop :=
  ∀ (H : Handler) (fuel : Nat) (s t : State), drain H fuel s = some t → t.mode = .fault →
    (t.fcode = .queueEmpty ∧ t.emptyFlag = true) ∨
      (t.fcode ≠ .queueEmpty ∧ t.fcode ≠ .protocol ∧ t.fcode ≠ .none ∧
        ∃ (u : State) (e : Event), PassReaches H s u ∧ HandlerTurn H u e t ∧ t.cur = some e)

/-- R156, R161: the two perpetual handlers, keeping their contract and not aborting, leave their event pending one
period after the counter, which they do not move, unless some sum does not fit. How strictly the contract reads R170
is assumption 10. A handler as a finite list of requests is assumption 15, the periods as arguments assumption 11. -/
def Obligations.ContractRearmsPerpetualEvents : Prop :=
  ∀ (p : Periods) (c : Situation) (e : Event) (script : Script) (period : U64) (s : State),
    (e = .generateAudioSample ∧ period = p.sample) ∨
      (e = .startNextLine ∧ period = p.line ∧ aborts script = false) →
    handlerContract p c e script = true → s.mode = .handler →
    ∃ t, runHandler s script.requests = some t ∧
      ((t.mode = .check ∧ t.cycle = s.cycle ∧ s.cycle.toNat + period.toNat < 2 ^ 64 ∧
          t.slot e.ord = some (s.cycle + period)) ∨
        (t.mode = .fault ∧ t.fcode = .dueOverflow))

/-- R224, R225: the boot sequence from reset leaves the perpetual events pending at their boot delays, the counter at
0 and the block in IDLE. The boot delays as arguments, and who arms HBlank, are assumptions 10 and 11; a run as a
function of its requests is assumption 15. -/
def Obligations.BootArmsPerpetualEvents : Prop :=
  ∀ (p : Periods) (arming : HBlankArming) (H : Handler) (fuel : Nat),
    ∃ t, ownerRun H fuel State.reset (bootSequence p arming).requests = some t ∧ t.mode = .idle ∧ t.cycle = 0 ∧
      t.fcode = .none ∧ t.qLookup .generateAudioSample = some p.bootSample ∧ t.qLookup .startNextLine = some p.bootLine ∧
      t.qLookup .hBlank = (if arming = .byItself then some p.bootHBlank else none) ∧
      ∀ e : Event, e ≠ .generateAudioSample → e ≠ .startNextLine → e ≠ .hBlank → t.qLookup e = none

/-- R163: the audio client's delay is the two's-complement negation of its reload value, in 1 .. 65535, and a reload of
zero arms nothing. -/
def Obligations.AudioDelayNegatesReload : Prop :=
  audioDelay 0 = none ∧
    ∀ r : BitVec 16, r ≠ 0 → ∃ d, audioDelay r = some d ∧ d.toNat = 2 ^ 16 - r.toNat ∧ 1 ≤ d.toNat ∧ d.toNat ≤ 65535

/-- R52: a command word, an operand and a status register go over a byte-addressed bus with the byte of bits [7:0]
first. That the command word comes before the operand is the model's choice (assumption 8). So is how many bytes a
status register's transfer takes. -/
def Obligations.SerialisedWordsAreLittleEndian : Prop :=
  (∀ (r : Request) (j : Nat),
    (j < 4 → r.bytes[j]? = some (r.cmd.extractLsb' (8 * j) 8)) ∧
    (j < 8 → r.bytes[4 + j]? = some (r.arg.extractLsb' (8 * j) 8))) ∧
  ∀ (s : State) (reg : StatusReg) (k j : Nat), j < k →
    (s.statusBytes reg k)[j]? = some ((s.readStatus reg).extractLsb' (8 * j) 8)
end

