-- ==== Sys2Proof/Laws/Events.lean ====
section
/-! SUPPORT. Event words, event values and slot ordinals determine one another (spec/30_encoding.md R73 to R75). -/

namespace Sys2Proof.Laws

/-- R8's formula for NUM_EVENTS. -/
theorem numEvents_formula : 2 * 4 + 3 + 2 * 4 + 1 + 2 + 1 + 2 * (8 + 6 + 2) = 55 := rfl

/-- `ord` inverts `ev` (R75). -/
@[simp] theorem ord_ofOrd (i : SlotIndex) : (Event.ofOrd i).ord = i := by
  revert i; decide

/-- `ev` inverts `ord` (R75). -/
@[simp] theorem ofOrd_ord (e : Event) : Event.ofOrd e.ord = e := by
  cases e with
  | dma c i => revert c i; decide
  | timerOverflow c t => revert c t; decide
  | cartridgeBlockEnded c => revert c; decide
  | stepAudioChannel ch => cases ch with
    | general j => revert j; decide
    | tone j => revert j; decide
    | noise j => revert j; decide
  | resetAudioChannel ch => cases ch with
    | general j => revert j; decide
    | tone j => revert j; decide
    | noise j => revert j; decide
  | _ => decide

theorem ord_injective {e f : Event} (h : e.ord = f.ord) : e = f := by
  rw [← ofOrd_ord e, h, ofOrd_ord]

/-- A fact about every event value is a fact about every slot. -/
theorem forall_event {p : Event → Prop} : (∀ e, p e) ↔ ∀ i, p (Event.ofOrd i) :=
  ⟨fun h _ => h _, fun h e => ofOrd_ord e ▸ h e.ord⟩

/-- An event's word names that event (R73). -/
@[simp] theorem ofWord_word (e : Event) : Event.ofWord e.word = some e := by
  revert e; rw [forall_event]; decide

/-- An event value's word is legal (R73). -/
@[simp] theorem word_legal (e : Event) : EventWord.legal e.word = true := by
  revert e; rw [forall_event]; decide

theorem word_injective {e f : Event} (h : e.word = f.word) : e = f := by
  have := ofWord_word f
  rw [← h, ofWord_word] at this
  exact Option.some.inj this

/-- The KIND field of an event's word is its kind's code (R70, R71). -/
@[simp] theorem word_kindField (e : Event) : EventWord.kindField e.word = e.kind.code := by
  revert e; rw [forall_event]; decide

/-- The word whose four fields are given. -/
def wordOfFields (k r a b : BitVec 4) : EventWord := k ++ r ++ a ++ b

theorem word_of_its_fields (w : EventWord) :
    wordOfFields (EventWord.kindField w) (EventWord.rsvField w) (EventWord.aField w) (EventWord.bField w) = w := by
  unfold wordOfFields EventWord.kindField EventWord.rsvField EventWord.aField EventWord.bField
  ext i hi
  simp only [BitVec.getElem_append, BitVec.getElem_extractLsb']
  split <;> [skip; split <;> [skip; split]] <;>
    rw [BitVec.getLsbD_eq_getElem (by omega)] <;> congr 1 <;> omega

/-- With a zero reserved field, legality and the event named are settled field by field. -/
theorem fields_decide : ∀ k a b : BitVec 4,
    EventWord.legal (wordOfFields k 0 a b) = (Event.ofWord (wordOfFields k 0 a b)).isSome ∧
      ∀ e ∈ Event.ofWord (wordOfFields k 0 a b), e.word = wordOfFields k 0 a b := by
  decide +kernel

/-- R73's table and the event map agree on every word. -/
theorem legal_eq_isSome (w : EventWord) : EventWord.legal w = (Event.ofWord w).isSome := by
  by_cases h : EventWord.rsvField w = 0
  · have := (fields_decide (EventWord.kindField w) (EventWord.aField w) (EventWord.bField w)).1
    rwa [← h, word_of_its_fields] at this
  · have h' : (EventWord.rsvField w == 0) = false := beq_eq_false_iff_ne.mpr h
    simp only [EventWord.legal, Event.ofWord, if_neg h, h', Bool.false_and, Option.isSome_none]

/-- The event a word names has that word: each event value has exactly one legal word (R73). -/
theorem word_of_ofWord {w : EventWord} {e : Event} (he : Event.ofWord w = some e) : e.word = w := by
  by_cases h : EventWord.rsvField w = 0
  · have := (fields_decide (EventWord.kindField w) (EventWord.aField w) (EventWord.bField w)).2
    rw [← h, word_of_its_fields] at this
    exact this e he
  · simp only [Event.ofWord, if_neg h, reduceCtorEq] at he

/-- A legal word is some event's word. -/
theorem exists_event_of_legal {w : EventWord} (h : EventWord.legal w = true) : ∃ e : Event, e.word = w := by
  rw [legal_eq_isSome, Option.isSome_iff_exists] at h
  exact h.imp fun e he => word_of_ofWord he

/-- An illegal word names no event (R83). -/
theorem ofWord_of_illegal {w : EventWord} (h : EventWord.legal w = false) : Event.ofWord w = none := by
  rwa [legal_eq_isSome, Option.isSome_eq_false_iff, Option.isNone_iff_eq_none] at h

end Sys2Proof.Laws
end

