-- ==== Sys2Proof/Laws/State.lean ====
section
/-! SUPPORT. The fields of the state after each named update, one lemma per field, true by unfolding once. -/

namespace Sys2Proof.Laws

open Sys2Proof.Machine

@[simp] theorem setSlot_cycle (s : State) (i : SlotIndex) (x : Option U64) : (s.setSlot i x).cycle = s.cycle := rfl
@[simp] theorem setSlot_slots (s : State) (i : SlotIndex) (x : Option U64) : (s.setSlot i x).slots = s.slots.set i.val x := rfl
@[simp] theorem setSlot_mode (s : State) (i : SlotIndex) (x : Option U64) : (s.setSlot i x).mode = s.mode := rfl
@[simp] theorem setSlot_cur (s : State) (i : SlotIndex) (x : Option U64) : (s.setSlot i x).cur = s.cur := rfl
@[simp] theorem setSlot_fcode (s : State) (i : SlotIndex) (x : Option U64) : (s.setSlot i x).fcode = s.fcode := rfl
@[simp] theorem setSlot_fev (s : State) (i : SlotIndex) (x : Option U64) : (s.setSlot i x).fev = s.fev := rfl
@[simp] theorem setSlot_fevValid (s : State) (i : SlotIndex) (x : Option U64) : (s.setSlot i x).fevValid = s.fevValid := rfl
@[simp] theorem setSlot_farg (s : State) (i : SlotIndex) (x : Option U64) : (s.setSlot i x).farg = s.farg := rfl
@[simp] theorem setSlot_port (s : State) (i : SlotIndex) (x : Option U64) : (s.setSlot i x).port = s.port := rfl

@[simp] theorem qInsert_cycle (s : State) (e : Event) (d : U64) : (s.qInsert e d).cycle = s.cycle := rfl
@[simp] theorem qInsert_slots (s : State) (e : Event) (d : U64) : (s.qInsert e d).slots = s.slots.set e.ord.val (some d) := rfl
@[simp] theorem qInsert_mode (s : State) (e : Event) (d : U64) : (s.qInsert e d).mode = s.mode := rfl
@[simp] theorem qInsert_cur (s : State) (e : Event) (d : U64) : (s.qInsert e d).cur = s.cur := rfl
@[simp] theorem qInsert_fcode (s : State) (e : Event) (d : U64) : (s.qInsert e d).fcode = s.fcode := rfl
@[simp] theorem qInsert_fev (s : State) (e : Event) (d : U64) : (s.qInsert e d).fev = s.fev := rfl
@[simp] theorem qInsert_fevValid (s : State) (e : Event) (d : U64) : (s.qInsert e d).fevValid = s.fevValid := rfl
@[simp] theorem qInsert_farg (s : State) (e : Event) (d : U64) : (s.qInsert e d).farg = s.farg := rfl
@[simp] theorem qInsert_port (s : State) (e : Event) (d : U64) : (s.qInsert e d).port = s.port := rfl

@[simp] theorem qRemove_cycle (s : State) (e : Event) : (s.qRemove e).cycle = s.cycle := rfl
@[simp] theorem qRemove_slots (s : State) (e : Event) : (s.qRemove e).slots = s.slots.set e.ord.val none := rfl
@[simp] theorem qRemove_mode (s : State) (e : Event) : (s.qRemove e).mode = s.mode := rfl
@[simp] theorem qRemove_cur (s : State) (e : Event) : (s.qRemove e).cur = s.cur := rfl
@[simp] theorem qRemove_fcode (s : State) (e : Event) : (s.qRemove e).fcode = s.fcode := rfl
@[simp] theorem qRemove_fev (s : State) (e : Event) : (s.qRemove e).fev = s.fev := rfl
@[simp] theorem qRemove_fevValid (s : State) (e : Event) : (s.qRemove e).fevValid = s.fevValid := rfl
@[simp] theorem qRemove_farg (s : State) (e : Event) : (s.qRemove e).farg = s.farg := rfl
@[simp] theorem qRemove_port (s : State) (e : Event) : (s.qRemove e).port = s.port := rfl

@[simp] theorem raise_cycle (s : State) (f : FaultCode) (e : Option EventWord) (a : U64) : (s.raise f e a).cycle = s.cycle := rfl
@[simp] theorem raise_slots (s : State) (f : FaultCode) (e : Option EventWord) (a : U64) : (s.raise f e a).slots = s.slots := rfl
@[simp] theorem raise_mode (s : State) (f : FaultCode) (e : Option EventWord) (a : U64) : (s.raise f e a).mode = .fault := rfl
@[simp] theorem raise_cur (s : State) (f : FaultCode) (e : Option EventWord) (a : U64) : (s.raise f e a).cur = s.cur := rfl
@[simp] theorem raise_fcode (s : State) (f : FaultCode) (e : Option EventWord) (a : U64) : (s.raise f e a).fcode = f := rfl
@[simp] theorem raise_fev (s : State) (f : FaultCode) (e : Option EventWord) (a : U64) : (s.raise f e a).fev = e.getD 0 := rfl
@[simp] theorem raise_fevValid (s : State) (f : FaultCode) (e : Option EventWord) (a : U64) : (s.raise f e a).fevValid = e.isSome := rfl
@[simp] theorem raise_farg (s : State) (f : FaultCode) (e : Option EventWord) (a : U64) : (s.raise f e a).farg = a := rfl
@[simp] theorem raise_port (s : State) (f : FaultCode) (e : Option EventWord) (a : U64) : (s.raise f e a).port = s.port := rfl

@[simp] theorem dispatch_cycle (s : State) (h : SlotIndex) : (s.dispatch h).cycle = s.cycle := rfl
@[simp] theorem dispatch_slots (s : State) (h : SlotIndex) : (s.dispatch h).slots = s.slots.set h.val none := rfl
@[simp] theorem dispatch_mode (s : State) (h : SlotIndex) : (s.dispatch h).mode = .handler := rfl
@[simp] theorem dispatch_cur (s : State) (h : SlotIndex) : (s.dispatch h).cur = some (Event.ofOrd h) := rfl
@[simp] theorem dispatch_fcode (s : State) (h : SlotIndex) : (s.dispatch h).fcode = s.fcode := rfl
@[simp] theorem dispatch_fev (s : State) (h : SlotIndex) : (s.dispatch h).fev = s.fev := rfl
@[simp] theorem dispatch_fevValid (s : State) (h : SlotIndex) : (s.dispatch h).fevValid = s.fevValid := rfl
@[simp] theorem dispatch_farg (s : State) (h : SlotIndex) : (s.dispatch h).farg = s.farg := rfl
@[simp] theorem dispatch_port (s : State) (h : SlotIndex) : (s.dispatch h).port = s.port := rfl

@[simp] theorem handlerReturn_cycle (s : State) : s.handlerReturn.cycle = s.cycle := rfl
@[simp] theorem handlerReturn_slots (s : State) : s.handlerReturn.slots = s.slots := rfl
@[simp] theorem handlerReturn_mode (s : State) : s.handlerReturn.mode = .check := rfl
@[simp] theorem handlerReturn_cur (s : State) : s.handlerReturn.cur = none := rfl
@[simp] theorem handlerReturn_fcode (s : State) : s.handlerReturn.fcode = s.fcode := rfl
@[simp] theorem handlerReturn_fev (s : State) : s.handlerReturn.fev = s.fev := rfl
@[simp] theorem handlerReturn_fevValid (s : State) : s.handlerReturn.fevValid = s.fevValid := rfl
@[simp] theorem handlerReturn_farg (s : State) : s.handlerReturn.farg = s.farg := rfl
@[simp] theorem handlerReturn_port (s : State) : s.handlerReturn.port = s.port := rfl

@[simp] theorem present_cycle (s : State) (r : Request) : (s.present r).cycle = s.cycle := rfl
@[simp] theorem present_slots (s : State) (r : Request) : (s.present r).slots = s.slots := rfl
@[simp] theorem present_mode (s : State) (r : Request) : (s.present r).mode = s.mode := rfl
@[simp] theorem present_cur (s : State) (r : Request) : (s.present r).cur = s.cur := rfl
@[simp] theorem present_fcode (s : State) (r : Request) : (s.present r).fcode = s.fcode := rfl
@[simp] theorem present_fev (s : State) (r : Request) : (s.present r).fev = s.fev := rfl
@[simp] theorem present_fevValid (s : State) (r : Request) : (s.present r).fevValid = s.fevValid := rfl
@[simp] theorem present_farg (s : State) (r : Request) : (s.present r).farg = s.farg := rfl
@[simp] theorem present_port (s : State) (r : Request) : (s.present r).port = .command r :: s.port := rfl

@[simp] theorem withFetchWord_cycle (s : State) (nbits w : Nat) : (s.withFetchWord nbits w).cycle = s.cycle := rfl
@[simp] theorem withFetchWord_slots (s : State) (nbits w : Nat) : (s.withFetchWord nbits w).slots = s.slots := rfl
@[simp] theorem withFetchWord_mode (s : State) (nbits w : Nat) : (s.withFetchWord nbits w).mode = s.mode := rfl
@[simp] theorem withFetchWord_cur (s : State) (nbits w : Nat) : (s.withFetchWord nbits w).cur = s.cur := rfl
@[simp] theorem withFetchWord_fcode (s : State) (nbits w : Nat) : (s.withFetchWord nbits w).fcode = s.fcode := rfl
@[simp] theorem withFetchWord_fev (s : State) (nbits w : Nat) : (s.withFetchWord nbits w).fev = s.fev := rfl
@[simp] theorem withFetchWord_fevValid (s : State) (nbits w : Nat) : (s.withFetchWord nbits w).fevValid = s.fevValid := rfl
@[simp] theorem withFetchWord_farg (s : State) (nbits w : Nat) : (s.withFetchWord nbits w).farg = s.farg := rfl
@[simp] theorem withFetchWord_port (s : State) (nbits w : Nat) : (s.withFetchWord nbits w).port = .command (tableRequest nbits w) :: s.port := rfl

@[simp] theorem reset_cycle : State.reset.cycle = 0 := rfl
@[simp] theorem reset_slots : State.reset.slots = Vector.replicate 55 none := rfl
@[simp] theorem reset_mode : State.reset.mode = .idle := rfl
@[simp] theorem reset_cur : State.reset.cur = none := rfl
@[simp] theorem reset_fcode : State.reset.fcode = .none := rfl
@[simp] theorem reset_fev : State.reset.fev = 0 := rfl
@[simp] theorem reset_fevValid : State.reset.fevValid = false := rfl
@[simp] theorem reset_farg : State.reset.farg = 0 := rfl
@[simp] theorem reset_port : State.reset.port = [] := rfl

@[simp] theorem applyReset_cycle (s : State) : s.applyReset.cycle = 0 := rfl
@[simp] theorem applyReset_slots (s : State) : s.applyReset.slots = Vector.replicate 55 none := rfl
@[simp] theorem applyReset_mode (s : State) : s.applyReset.mode = .idle := rfl
@[simp] theorem applyReset_cur (s : State) : s.applyReset.cur = none := rfl
@[simp] theorem applyReset_fcode (s : State) : s.applyReset.fcode = .none := rfl
@[simp] theorem applyReset_fev (s : State) : s.applyReset.fev = 0 := rfl
@[simp] theorem applyReset_fevValid (s : State) : s.applyReset.fevValid = false := rfl
@[simp] theorem applyReset_farg (s : State) : s.applyReset.farg = 0 := rfl
@[simp] theorem applyReset_port (s : State) : s.applyReset.port = s.port := rfl

end Sys2Proof.Laws
end

