-- ==== Sys2Proof/Laws/Ops.lean ====
section
/-! SUPPORT. One lemma per shared operation: the slot bank, the search for the head, the adder, the gates
(spec/00_scope.md R11; spec/41_clock_and_dispatch.md R126, R137). -/

namespace Sys2Proof.Laws

open Sys2Proof.Machine

/-! The slot bank. -/

@[simp] theorem slot_setSlot_self (s : State) (i : SlotIndex) (x : Option U64) : (s.setSlot i x).slot i = x := by
  simp [State.slot]

theorem slot_setSlot_of_ne (s : State) {i j : SlotIndex} (x : Option U64) (h : j ≠ i) :
    (s.setSlot i x).slot j = s.slot j := by
  have : i.val ≠ j.val := fun e => h (Fin.ext e.symm)
  simp [State.slot, this]

/-- A read after a write, at any slot. -/
theorem slot_setSlot (s : State) (i j : SlotIndex) (x : Option U64) :
    (s.setSlot i x).slot j = if j = i then x else s.slot j := by
  split
  · next h => rw [h, slot_setSlot_self]
  · next h => exact slot_setSlot_of_ne s x h

/-- Only the slot bank decides what a slot reads. -/
theorem slot_congr {s t : State} (h : s.slots = t.slots) (i : SlotIndex) : s.slot i = t.slot i := by
  simp [State.slot, h]

/-- Two slot banks that read alike at every slot are one. -/
theorem slots_ext {s t : State} (h : ∀ i, s.slot i = t.slot i) : s.slots = t.slots :=
  Vector.ext fun i hi => h ⟨i, hi⟩

@[simp] theorem slot_reset (i : SlotIndex) : State.reset.slot i = none := by simp [State.slot]

@[simp] theorem slot_applyReset (s : State) (i : SlotIndex) : s.applyReset.slot i = none := by simp [State.slot]

@[simp] theorem slot_raise (s : State) (f : FaultCode) (e : Option EventWord) (a : U64) (i : SlotIndex) :
    (s.raise f e a).slot i = s.slot i := rfl

@[simp] theorem slot_handlerReturn (s : State) (i : SlotIndex) : s.handlerReturn.slot i = s.slot i := rfl

theorem slot_qInsert (s : State) (e : Event) (d : U64) (j : SlotIndex) :
    (s.qInsert e d).slot j = if j = e.ord then some d else s.slot j := slot_setSlot s e.ord j (some d)

theorem slot_qRemove (s : State) (e : Event) (j : SlotIndex) :
    (s.qRemove e).slot j = if j = e.ord then none else s.slot j := slot_setSlot s e.ord j none

theorem slot_dispatch (s : State) (h j : SlotIndex) :
    (s.dispatch h).slot j = if j = h then none else s.slot j := slot_setSlot s h j none

/-- Writing a slot twice is writing it once (R105). -/
theorem setSlot_setSlot (s : State) (i : SlotIndex) (x y : Option U64) :
    (s.setSlot i x).setSlot i y = s.setSlot i y := by
  simp [State.setSlot]

/-- Writing what a slot already holds changes nothing. -/
theorem setSlot_same (s : State) (i : SlotIndex) : s.setSlot i (s.slot i) = s := by
  simp [State.setSlot, State.slot]

/-! The search for the head. -/

@[simp] theorem mem_allSlots (i : SlotIndex) : i ∈ allSlots := List.mem_finRange i

theorem mem_pending {s : State} {i : SlotIndex} : i ∈ s.pending ↔ (s.slot i).isSome = true := by
  simp [State.pending]

theorem mem_pendingDues {s : State} {d : U64} : d ∈ s.pendingDues ↔ ∃ i, s.slot i = some d := by
  simp [State.pendingDues]

theorem mem_slotsDueAt {s : State} {d : U64} {i : SlotIndex} : i ∈ s.slotsDueAt d ↔ s.slot i = some d := by
  simp [State.slotsDueAt]

/-- `QEmpty()` (R11). -/
theorem qEmpty_iff {s : State} : s.qEmpty = true ↔ ∀ i, s.slot i = none := by
  simp [State.qEmpty]

theorem leastDue_eq_none {ds : List U64} : leastDue ds = none ↔ ds = [] := by
  cases ds with
  | nil => simp [leastDue]
  | cons d ds => cases h : leastDue ds <;> simp [leastDue, h]

/-- `leastDue` answers a member of the list that no member is below. -/
theorem leastDue_spec : ∀ {ds : List U64} {m : U64}, leastDue ds = some m → m ∈ ds ∧ ∀ d ∈ ds, m ≤ d
  | [], _, h => by simp [leastDue] at h
  | d :: ds, m, h => by
    cases hl : leastDue ds with
    | none =>
      have hd : d = m := by simpa [leastDue, hl] using h
      have : ds = [] := leastDue_eq_none.mp hl
      subst this; subst hd; simp
    | some n =>
      have ⟨hn, hle⟩ := leastDue_spec hl
      have hm : (if d ≤ n then d else n) = m := by simpa [leastDue, hl] using h
      have key : (m = d ∨ m = n) ∧ m ≤ d ∧ m ≤ n := by
        subst hm; split
        · next h' => exact ⟨.inl rfl, BitVec.le_refl _, h'⟩
        · next h' => exact ⟨.inr rfl, by simp only [BitVec.le_def] at h' ⊢; omega, BitVec.le_refl _⟩
      refine ⟨?_, ?_⟩
      · rcases key.1 with rfl | rfl <;> simp [hn]
      · intro x hx
        rcases List.mem_cons.mp hx with rfl | hx
        · exact key.2.1
        · exact BitVec.le_trans key.2.2 (hle x hx)

/-- The slots that share the least due cycle are some, when that cycle is held at all. -/
theorem slotsDueAt_ne_nil {s : State} {d : U64} (h : d ∈ s.pendingDues) : s.slotsDueAt d ≠ [] := by
  obtain ⟨i, hi⟩ := mem_pendingDues.mp h
  exact List.ne_nil_of_mem (mem_slotsDueAt.mpr hi)

/-- This hardware's tie-break is one R126 allows. -/
theorem lowestFirst_consistent : TiePolicy.Consistent lowestFirst := by
  intro c hc
  cases c with
  | nil => exact absurd rfl hc
  | cons i is => exact ⟨i, List.mem_cons_self, rfl⟩

/-- Under a consistent tie-break there is no head exactly when the store is empty (R126). -/
theorem headWith_eq_none {tie : TiePolicy} (ht : tie.Consistent) {s : State} :
    s.headWith tie = none ↔ s.qEmpty = true := by
  rw [qEmpty_iff]
  cases h : leastDue s.pendingDues with
  | none =>
    have hnil := leastDue_eq_none.mp h
    simp only [State.headWith, h, true_iff]
    intro i
    cases hi : s.slot i with
    | none => rfl
    | some d => exact absurd (mem_pendingDues.mpr ⟨i, hi⟩) (by simp [hnil])
  | some m =>
    have hm := (leastDue_spec h).1
    obtain ⟨i, -, hi⟩ := ht _ (slotsDueAt_ne_nil hm)
    obtain ⟨j, hj⟩ := mem_pendingDues.mp hm
    simp only [State.headWith, h, hi, Option.map_some, reduceCtorEq, false_iff, not_forall]
    exact ⟨j, by simp [hj]⟩

/-- Under a consistent tie-break the head is a pending entry with the least due cycle (R126). -/
theorem headWith_spec {tie : TiePolicy} (ht : tie.Consistent) {s : State} {i : SlotIndex} {d : U64}
    (h : s.headWith tie = some (i, d)) : s.slot i = some d ∧ ∀ j d', s.slot j = some d' → d ≤ d' := by
  cases hl : leastDue s.pendingDues with
  | none => simp [State.headWith, hl] at h
  | some m =>
    have ⟨hm, hle⟩ := leastDue_spec hl
    obtain ⟨k, hk, hk'⟩ := ht _ (slotsDueAt_ne_nil hm)
    simp only [State.headWith, hl, hk', Option.map_some, Option.some.injEq, Prod.mk.injEq] at h
    obtain ⟨rfl, rfl⟩ := h
    exact ⟨mem_slotsDueAt.mp hk, fun j d' hj => hle d' (mem_pendingDues.mpr ⟨j, hj⟩)⟩

/-- Among the entries that share the head's due cycle, this hardware's head has the least ordinal (R126). -/
theorem qHead_lowest {s : State} {i : SlotIndex} {d : U64} (h : s.qHead = some (i, d)) :
    ∀ j, s.slot j = some d → i ≤ j := by
  intro j hj
  cases hl : leastDue s.pendingDues with
  | none => simp [State.qHead, State.headWith, hl] at h
  | some m =>
    simp only [State.qHead, State.headWith, hl, Option.map_eq_some_iff, Prod.mk.injEq] at h
    obtain ⟨k, hk, rfl, rfl⟩ := h
    have hsorted : (s.slotsDueAt m).Pairwise (· ≤ ·) := by
      have : allSlots.Pairwise (· ≤ ·) := by decide
      exact this.filter _
    have hmem : j ∈ s.slotsDueAt m := mem_slotsDueAt.mpr hj
    cases hc : s.slotsDueAt m with
    | nil => simp [hc] at hmem
    | cons a as =>
      rw [hc] at hk hsorted hmem
      have ha : a = k := by simpa [lowestFirst] using hk
      subst ha
      rcases List.mem_cons.mp hmem with rfl | hmem
      · exact le_refl _
      · exact (List.pairwise_cons.mp hsorted).1 j hmem

/-- No head exactly when the store is empty (R11). -/
theorem qHead_eq_none {s : State} : s.qHead = none ↔ s.qEmpty = true := headWith_eq_none lowestFirst_consistent

/-- The head is a pending entry with the least due cycle (R11). -/
theorem qHead_spec {s : State} {i : SlotIndex} {d : U64} (h : s.qHead = some (i, d)) :
    s.slot i = some d ∧ ∀ j d', s.slot j = some d' → d ≤ d' := headWith_spec lowestFirst_consistent h

/-! The adder and the gates. -/

/-- The adder answers the exact sum when it fits (R137). -/
theorem addExact_of_fits {a b : U64} (h : a.toNat + b.toNat < 2 ^ 64) : addExact a b = some (a + b) := by
  simp only [addExact, if_pos h]

/-- The adder answers nothing on a carry (R137). -/
theorem addExact_of_overflows {a b : U64} (h : 2 ^ 64 ≤ a.toNat + b.toNat) : addExact a b = none := by
  simp only [addExact, if_neg (Nat.not_lt.mpr h)]

/-- A sum the adder answers is the exact one, at least either operand (R137). -/
theorem addExact_spec {a b c : U64} (h : addExact a b = some c) :
    c.toNat = a.toNat + b.toNat ∧ a.toNat + b.toNat < 2 ^ 64 := by
  unfold addExact at h
  split at h
  · next hlt =>
    obtain rfl := Option.some.inj h
    exact ⟨by rw [BitVec.toNat_add, Nat.mod_eq_of_lt hlt], hlt⟩
  · cases h

theorem accepting_of_idle {s : State} (h : s.mode = .idle) (b : State) : s.accepting b = b := by
  simp [State.accepting, h]

theorem accepting_of_handler {s : State} (h : s.mode = .handler) (b : State) : s.accepting b = b := by
  simp [State.accepting, h]

theorem accepting_of_check {s : State} (h : s.mode = .check) (b : State) : s.accepting b = s := by
  simp [State.accepting, h]

theorem accepting_of_fault {s : State} (h : s.mode = .fault) (b : State) : s.accepting b = s := by
  simp [State.accepting, h]

/-- The gate passes a command on in IDLE and HANDLER, and lets it change nothing otherwise. -/
theorem accepting_cases (s b : State) :
    ((s.mode = .idle ∨ s.mode = .handler) ∧ s.accepting b = b) ∨
      ((s.mode = .check ∨ s.mode = .fault) ∧ s.accepting b = s) := by
  cases h : s.mode <;> simp [State.accepting, h]

/-- An event's own word passes the event operand's test. -/
@[simp] theorem withEvent_word (s : State) (e : Event) (arg : U64) (b : Event → State) :
    s.withEvent e.word arg b = b e := by
  simp [State.withEvent]

/-- The event operand either names its event or raises ILLEGAL_EVENT. -/
theorem withEvent_cases (s : State) (ev : EventWord) (arg : U64) (b : Event → State) :
    (∃ e : Event, e.word = ev ∧ s.withEvent ev arg b = b e) ∨
      (EventWord.legal ev = false ∧ s.withEvent ev arg b = s.raise .illegalEvent (some ev) arg) := by
  cases h : Event.ofWord ev with
  | some e => exact .inl ⟨e, word_of_ofWord h, by simp [State.withEvent, h]⟩
  | none => exact .inr ⟨by rw [legal_eq_isSome, h]; rfl, by simp [State.withEvent, h]⟩

/-- The sum operand either fits, and is exact, or raises the overflow. -/
theorem withSum_cases (s : State) (a : U64) (f : FaultCode) (e : Option EventWord) (b : U64 → State) :
    (s.cycle.toNat + a.toNat < 2 ^ 64 ∧ s.withSum a f e b = b (s.cycle + a)) ∨
      (2 ^ 64 ≤ s.cycle.toNat + a.toNat ∧ s.withSum a f e b = s.raise f e a) := by
  by_cases h : s.cycle.toNat + a.toNat < 2 ^ 64
  · exact .inl ⟨h, by simp [State.withSum, addExact_of_fits h]⟩
  · exact .inr ⟨Nat.not_lt.mp h, by simp [State.withSum, addExact_of_overflows (Nat.not_lt.mp h)]⟩

end Sys2Proof.Laws
end

