-- ==== Sys2Proof/Laws/Commands.lean ====
section
/-! SUPPORT. Everything a command, an ARBITRATE and a step can do, said once (spec/30_encoding.md R81;
spec/41_clock_and_dispatch.md R129). -/

namespace Sys2Proof.Laws

open Sys2Proof.Machine

/-- SCHEDULE, CANCEL and RUN_NOW take an event (R80). -/
abbrev TakesEvent : Instr → Prop
  | .schedule _ _ => True
  | .cancel _ _ => True
  | .runNow _ _ => True
  | .advance _ => False
  | .done _ => False
  | .abort _ => False

/-- Every effect a command can have from `s`. -/
inductive Effect (s : State) : Instr → State → Prop
  | held (i : Instr) (hm : s.mode = .check ∨ s.mode = .fault) : Effect s i s
  | illegalEvent (i : Instr) (ha : s.Accepts) (ht : TakesEvent i) (hl : EventWord.legal i.evOperand = false) :
      Effect s i (s.raise .illegalEvent (some i.evOperand) i.argOperand)
  | inserted (e : Event) (d : U64) (ha : s.Accepts) (hfit : s.cycle.toNat + d.toNat < 2 ^ 64) :
      Effect s (.schedule e.word d) (s.qInsert e (s.cycle + d))
  | dueOverflow (e : Event) (d : U64) (ha : s.Accepts) (hover : 2 ^ 64 ≤ s.cycle.toNat + d.toNat) :
      Effect s (.schedule e.word d) (s.raise .dueOverflow (some e.word) d)
  | removed (e : Event) (arg : U64) (ha : s.Accepts) : Effect s (.cancel e.word arg) (s.qRemove e)
  | insertedNow (e : Event) (arg : U64) (ha : s.Accepts) : Effect s (.runNow e.word arg) (s.qInsert e s.cycle)
  | passStarted (n : U64) (hm : s.mode = .idle) (hfit : s.cycle.toNat + n.toNat < 2 ^ 64) :
      Effect s (.advance n) { s with cycle := s.cycle + n, mode := .check }
  | clockMoved (n : U64) (hm : s.mode = .handler) (hfit : s.cycle.toNat + n.toNat < 2 ^ 64) :
      Effect s (.advance n) { s with cycle := s.cycle + n, mode := .handler }
  | cycleOverflow (n : U64) (ha : s.Accepts) (hover : 2 ^ 64 ≤ s.cycle.toNat + n.toNat) :
      Effect s (.advance n) (s.raise .cycleOverflow s.runningWord n)
  | returned (arg : U64) (hm : s.mode = .handler) : Effect s (.done arg) s.handlerReturn
  | aborted (info : U64) (hm : s.mode = .handler) : Effect s (.abort info) (s.raise .handlerAbort s.curWord info)
  | protocol (i : Instr) (hm : s.mode = .idle) (he : endsHandler i = true) :
      Effect s i (s.raise .protocol none (CmdWord.recorded i.cmdWord))

/-- A word that an event operand accepts or rejects, as the cases of the three event-taking commands. -/
theorem event_word_cases (ev : EventWord) : (∃ e : Event, e.word = ev) ∨ EventWord.legal ev = false := by
  cases h : EventWord.legal ev with
  | true => exact .inl (exists_event_of_legal h)
  | false => exact .inr rfl

/-- Every command answers a next state, and that state is one of its effects. -/
theorem exec_effect (i : Instr) (s : State) : ∃ t, exec i s = .next t ∧ Effect s i t := by
  rcases (show s.Accepts ∨ s.mode = .check ∨ s.mode = .fault by unfold State.Accepts; cases s.mode <;> simp) with ha | hm
  · have hacc : ∀ b, s.accepting b = b := fun b =>
      ha.elim (fun h => accepting_of_idle h b) (fun h => accepting_of_handler h b)
    cases i with
    | schedule ev d =>
      refine ⟨_, rfl, ?_⟩
      rw [hacc]
      rcases withEvent_cases s ev d (fun e => s.withSum d .dueOverflow (some ev) fun due => s.qInsert e due) with
        ⟨e, rfl, h⟩ | ⟨hl, h⟩
      · rw [h]
        rcases withSum_cases s d .dueOverflow (some e.word) (fun due => s.qInsert e due) with ⟨hf, h⟩ | ⟨ho, h⟩
        · rw [h]; exact .inserted e d ha hf
        · rw [h]; exact .dueOverflow e d ha ho
      · rw [h]; exact .illegalEvent (.schedule ev d) ha trivial hl
    | cancel ev arg =>
      refine ⟨_, rfl, ?_⟩
      rw [hacc]
      rcases withEvent_cases s ev arg (fun e => s.qRemove e) with ⟨e, rfl, h⟩ | ⟨hl, h⟩
      · rw [h]; exact .removed e arg ha
      · rw [h]; exact .illegalEvent (.cancel ev arg) ha trivial hl
    | runNow ev arg =>
      refine ⟨_, rfl, ?_⟩
      rw [hacc]
      rcases withEvent_cases s ev arg (fun e => s.qInsert e s.cycle) with ⟨e, rfl, h⟩ | ⟨hl, h⟩
      · rw [h]; exact .insertedNow e arg ha
      · rw [h]; exact .illegalEvent (.runNow ev arg) ha trivial hl
    | advance n =>
      refine ⟨_, rfl, ?_⟩
      rw [hacc]
      rcases withSum_cases s n .cycleOverflow s.runningWord
        (fun sum => { s with cycle := sum, mode := s.mode.afterAdvance }) with ⟨hf, h⟩ | ⟨ho, h⟩
      · rw [h]
        rcases ha with hm | hm
        · simpa [hm, Mode.afterAdvance] using Effect.passStarted n hm hf
        · simpa [hm, Mode.afterAdvance] using Effect.clockMoved n hm hf
      · rw [h]; exact .cycleOverflow n ha ho
    | done arg =>
      refine ⟨_, rfl, ?_⟩
      rw [hacc]
      rcases ha with hm | hm
      · simpa [State.handshake, hm] using Effect.protocol (.done arg) hm rfl
      · simpa [State.handshake, hm] using Effect.returned arg hm
    | abort info =>
      refine ⟨_, rfl, ?_⟩
      rw [hacc]
      rcases ha with hm | hm
      · simpa [State.handshake, hm] using Effect.protocol (.abort info) hm rfl
      · simpa [State.handshake, hm] using Effect.aborted info hm
  · have hacc : ∀ b, s.accepting b = s := fun b =>
      hm.elim (fun h => accepting_of_check h b) (fun h => accepting_of_fault h b)
    refine ⟨s, ?_, .held i hm⟩
    cases i <;> simp [exec, execSchedule, execCancel, execRunNow, execAdvance, execDone, execAbort, hacc]

/-- A next state of a command is one of its effects. -/
theorem effect_of_exec {i : Instr} {s t : State} (h : exec i s = .next t) : Effect s i t := by
  obtain ⟨u, hu, he⟩ := exec_effect i s
  rw [h] at hu
  cases hu
  exact he

/-- `afterCommand` is the next state. -/
theorem exec_afterCommand (i : Instr) (s : State) : exec i s = .next (s.afterCommand i) := by
  obtain ⟨t, ht, -⟩ := exec_effect i s
  simp [State.afterCommand, ht]

theorem effect_of_afterCommand {i : Instr} {s t : State} (h : s.afterCommand i = t) : Effect s i t :=
  h ▸ effect_of_exec (exec_afterCommand i s)

/-- An edit of the store leaves acceptance alone. -/
theorem accepts_setSlot {s : State} (h : s.Accepts) (i : SlotIndex) (x : Option U64) : (s.setSlot i x).Accepts := h

/-- A gated rule applies in IDLE and in HANDLER. -/
theorem accepting_of_accepts {s : State} (h : s.Accepts) (b : State) : s.accepting b = b :=
  h.elim (fun h => accepting_of_idle h b) (fun h => accepting_of_handler h b)

/-- In CHECK and in FAULT a command changes nothing (R33, R189). -/
theorem exec_of_held {s : State} (h : s.mode = .check ∨ s.mode = .fault) (i : Instr) : exec i s = .next s := by
  have hacc : ∀ b, s.accepting b = s := fun b =>
    h.elim (fun h => accepting_of_check h b) (fun h => accepting_of_fault h b)
  cases i <;> simp only [exec, execSchedule, execCancel, execRunNow, execAdvance, execDone, execAbort, hacc]

/-- An illegal event word raises ILLEGAL_EVENT (R186). -/
theorem exec_of_illegal_event {s : State} (ha : s.Accepts) {i : Instr} (ht : TakesEvent i)
    (hl : EventWord.legal i.evOperand = false) :
    exec i s = .next (s.raise .illegalEvent (some i.evOperand) i.argOperand) := by
  cases i with
  | schedule ev d =>
    have h : Event.ofWord ev = none := ofWord_of_illegal hl
    simp only [exec, execSchedule, accepting_of_accepts ha, State.withEvent, h, Instr.evOperand, Instr.argOperand]
  | cancel ev d =>
    have h : Event.ofWord ev = none := ofWord_of_illegal hl
    simp only [exec, execCancel, accepting_of_accepts ha, State.withEvent, h, Instr.evOperand, Instr.argOperand]
  | runNow ev d =>
    have h : Event.ofWord ev = none := ofWord_of_illegal hl
    simp only [exec, execRunNow, accepting_of_accepts ha, State.withEvent, h, Instr.evOperand, Instr.argOperand]
  | advance _ => exact ht.elim
  | done _ => exact ht.elim
  | abort _ => exact ht.elim

/-- The fault entry is what `FaultedWith` says of it (R188). -/
theorem raise_faultedWith (s : State) (f : FaultCode) (e : Option EventWord) (a : U64) :
    State.FaultedWith f e a s (s.raise f e a) := ⟨rfl, rfl, rfl, rfl, rfl, rfl, fun _ => rfl, rfl, rfl⟩

/-- The port's contents play no part in what a command does. -/
theorem exec_with_port (i : Instr) (s : State) (p : List PortItem) :
    exec i { s with port := p } = .next { s.afterCommand i with port := p } := by
  obtain ⟨c, sl, m, cu, f, fe, fv, fa, po⟩ := s
  cases m <;> cases i <;>
    simp only [State.afterCommand, exec, execSchedule, execCancel, execRunNow, execAdvance, execDone, execAbort,
      State.accepting, State.handshake, State.withSum, State.withEvent, State.runningWord, State.curWord] <;>
    (first | rfl | (split <;> first | rfl | (split <;> rfl)))

/-- What PROTOCOL records of a DONE (R187). -/
@[simp] theorem recorded_done (arg : U64) : CmdWord.recorded (Instr.done arg).cmdWord = 0x50000000 := by
  show CmdWord.recorded ((5 : BitVec 4) ++ (0 : BitVec 12) ++ (0 : BitVec 16)) = 0x50000000
  decide

/-- What PROTOCOL records of an ABORT (R187). -/
@[simp] theorem recorded_abort (info : U64) : CmdWord.recorded (Instr.abort info).cmdWord = 0x60000000 := by
  show CmdWord.recorded ((6 : BitVec 4) ++ (0 : BitVec 12) ++ (0 : BitVec 16)) = 0x60000000
  decide

/-- Everything an ARBITRATE can do (R129). -/
inductive ArbitrateEffect (s : State) : State → Prop
  | empty (h : s.qEmpty = true) : ArbitrateEffect s (s.raise .queueEmpty none s.cycle)
  | dispatched (h : SlotIndex) (d : U64) (hslot : s.slot h = some d) (hleast : ∀ j d', s.slot j = some d' → d ≤ d')
      (hdue : d ≤ s.cycle) : ArbitrateEffect s (s.dispatch h)
  | ended (hne : s.qEmpty = false) (hfuture : ∀ j d', s.slot j = some d' → s.cycle < d') :
      ArbitrateEffect s { s with mode := .idle }

/-- ARBITRATE under a consistent tie-break does one of the three (R126, R129). -/
theorem arbitrateWith_effect {tie : TiePolicy} (ht : tie.Consistent) {s t : State} (he : s.arbitrateWith tie = t) :
    ArbitrateEffect s t := by
  subst he
  cases h : s.headWith tie with
  | none =>
    simp only [State.arbitrateWith, h]
    exact .empty ((headWith_eq_none ht).mp h)
  | some p =>
    obtain ⟨i, d⟩ := p
    have ⟨hslot, hleast⟩ := headWith_spec ht h
    simp only [State.arbitrateWith, h]
    split
    · next hdue => exact .dispatched i d hslot hleast hdue
    · next hdue =>
      refine .ended ?_ fun j d' hj => ?_
      · cases he : s.qEmpty with
        | false => rfl
        | true => rw [qEmpty_iff.mp he i] at hslot; cases hslot
      · have := hleast j d' hj
        simp only [BitVec.le_def, BitVec.lt_def] at *
        omega

/-- ARBITRATE does one of the three (R129). -/
theorem arbitrate_effect {s t : State} (he : s.arbitrate = t) : ArbitrateEffect s t :=
  arbitrateWith_effect lowestFirst_consistent he

/-- An ARBITRATE always leaves CHECK (R33). -/
theorem arbitrate_mode_ne_check (s : State) : s.arbitrate.mode ≠ .check := by
  generalize h : s.arbitrate = t
  cases arbitrate_effect h <;> simp

/-- The port's contents play no part in what the arbiter does. -/
theorem arbitrate_with_port (s : State) (p : List PortItem) :
    ({ s with port := p } : State).arbitrate = { s.arbitrate with port := p } := by
  have hq : ({ s with port := p } : State).headWith lowestFirst = s.headWith lowestFirst := rfl
  simp only [State.arbitrate, State.arbitrateWith, hq]
  split
  · rfl
  · split <;> rfl

/-- The arbiter leaves the port alone. -/
@[simp] theorem arbitrate_port (s : State) : s.arbitrate.port = s.port := by
  generalize h : s.arbitrate = t
  cases arbitrate_effect h <;> rfl

/-- Everything a step can do. -/
inductive StepEffect (s : State) : State → Prop
  | reset (rest : List PortItem) (hp : s.port = .reset :: rest) :
      StepEffect s { State.reset with port := rest }
  | arbitrated (p : List PortItem) (hp : s.port = p ∨ s.port = .quiet :: p) (hm : s.mode = .check) :
      StepEffect s { s.arbitrate with port := p }
  | waited (p : List PortItem) (hp : s.port = [] ∧ p = [] ∨ s.port = .quiet :: p) (hm : s.mode ≠ .check) :
      StepEffect s { s with port := p }
  | command (r : Request) (rest : List PortItem) (i : Instr) (t : State) (hp : s.port = .command r :: rest)
      (hm : s.mode ≠ .check) (hd : decode r = .ok i) (he : Effect s i t) : StepEffect s { t with port := rest }
  | discarded (r : Request) (rest : List PortItem) (why : DecodeError) (hp : s.port = .command r :: rest)
      (hm : s.mode = .fault) (hd : decode r = .error why) : StepEffect s { s with port := rest }
  | illegal (r : Request) (rest : List PortItem) (why : DecodeError) (hp : s.port = .command r :: rest)
      (ha : s.Accepts) (hd : decode r = .error why) :
      StepEffect s { s.raise .illegalCommand none (CmdWord.recorded r.cmd) with port := rest }

/-- Every step answers a next state, and that state is one of its effects. -/
theorem step_effect (s : State) : ∃ t, step s = .next t ∧ StepEffect s t := by
  cases hp : s.port with
  | nil =>
    refine ⟨s.ownMove, by simp [step, hp], ?_⟩
    by_cases hm : s.mode = .check
    · have := StepEffect.arbitrated [] (.inl hp) hm
      rw [← hp, ← arbitrate_with_port] at this
      have he : s.ownMove = s.arbitrate := by simp [State.ownMove, hm]
      rw [he]
      exact this
    · have := StepEffect.waited [] (.inl ⟨hp, rfl⟩) hm
      rw [← hp] at this
      have he : s.ownMove = s := by cases h : s.mode <;> simp_all [State.ownMove]
      rwa [he]
  | cons item rest =>
    cases item with
    | reset => exact ⟨_, by simp only [step, hp, State.transact]; rfl, .reset rest hp⟩
    | quiet =>
      refine ⟨({ s with port := rest } : State).ownMove, by simp [step, hp, State.transact], ?_⟩
      by_cases hm : s.mode = .check
      · have := StepEffect.arbitrated rest (.inr hp) hm
        rw [← arbitrate_with_port] at this
        simpa [State.ownMove, hm] using this
      · have he : ({ s with port := rest } : State).ownMove = { s with port := rest } := by
          cases h : s.mode <;> simp_all [State.ownMove]
        rw [he]
        exact .waited rest (.inr hp) hm
    | command r =>
      by_cases hm : s.mode = .check
      · refine ⟨s.arbitrate, by simp [step, hp, State.transact, State.cmdReady, State.ownMove, hm], ?_⟩
        have := StepEffect.arbitrated s.port (.inl rfl) hm
        rw [← arbitrate_with_port] at this
        exact this
      · have hr : s.cmdReady = true := by cases h : s.mode <;> simp_all [State.cmdReady]
        have hstep : step s = ({ s with port := rest } : State).acceptRequest r := by
          simp only [step, hp, State.transact, if_pos hr]
        cases hd : decode r with
        | ok i =>
          refine ⟨{ s.afterCommand i with port := rest }, ?_, .command r rest i _ hp hm hd (effect_of_afterCommand rfl)⟩
          rw [hstep, State.acceptRequest, hd]
          exact exec_with_port i s rest
        | error why =>
          have hex : step s = .next (({ s with port := rest } : State).illegalCommand r.cmd) := by
            rw [hstep, State.acceptRequest, hd]
          refine ⟨_, hex, ?_⟩
          cases h : s.mode with
          | check => exact absurd h hm
          | fault => simpa [State.illegalCommand, State.accepting, h] using StepEffect.discarded r rest why hp h hd
          | idle => simpa [State.illegalCommand, State.accepting, h, State.raise] using StepEffect.illegal r rest why hp (.inl h) hd
          | handler => simpa [State.illegalCommand, State.accepting, h, State.raise] using StepEffect.illegal r rest why hp (.inr h) hd

/-- In CHECK a step is one ARBITRATE, whatever is presented but reset. -/
theorem step_of_check {s : State} (hm : s.mode = .check) (hnr : ∀ rest, s.port ≠ .reset :: rest) :
    step s = .next { s.arbitrate with port := s.portLeft } := by
  have hs : s.portLeft = s.port → ({ s with port := s.portLeft } : State) = s := fun h => by rw [h]
  rw [← arbitrate_with_port]
  rcases hp : s.port with _ | ⟨item, rest⟩
  · rw [hs (by simp only [State.portLeft, hp])]
    simp only [step, hp, State.ownMove, hm]
  · cases item with
    | reset => exact absurd hp (hnr rest)
    | quiet => simp only [step, State.transact, State.ownMove, State.portLeft, hp, hm]
    | command r =>
      rw [hs (by simp only [State.portLeft, hp])]
      simp [step, State.transact, State.cmdReady, State.ownMove, hp, hm]

/-- A next state of a step is one of its effects. -/
theorem effect_of_step {s t : State} (h : step s = .next t) : StepEffect s t := by
  obtain ⟨u, hu, he⟩ := step_effect s
  rw [h] at hu
  cases hu
  exact he

end Sys2Proof.Laws
end

