-- ==== Sys2Proof/Laws/Decode.lean ====
section
/-! SUPPORT. The fields of an encoded command word, and the bytes of a serialised word (spec/30_encoding.md R77;
spec/20_memory.md R52). -/

namespace Sys2Proof.Laws

/-- A command word put together from its three fields (R77). -/
def cmdOfFields (op : BitVec 4) (rsv : BitVec 12) (ev : EventWord) : CmdWord := op ++ rsv ++ ev

@[simp] theorem opField_cmdOfFields (op : BitVec 4) (rsv : BitVec 12) (ev : EventWord) :
    CmdWord.opField (cmdOfFields op rsv ev) = op := by
  unfold cmdOfFields CmdWord.opField
  ext i hi
  simp only [BitVec.getElem_extractLsb', BitVec.getLsbD_append]
  rw [if_neg (by omega), if_neg (by omega), ← BitVec.getLsbD_eq_getElem]
  congr 1; omega

@[simp] theorem rsvField_cmdOfFields (op : BitVec 4) (rsv : BitVec 12) (ev : EventWord) :
    CmdWord.rsvField (cmdOfFields op rsv ev) = rsv := by
  unfold cmdOfFields CmdWord.rsvField
  ext i hi
  simp only [BitVec.getElem_extractLsb', BitVec.getLsbD_append]
  rw [if_neg (by omega), if_pos (by omega), ← BitVec.getLsbD_eq_getElem]
  congr 1; omega

@[simp] theorem evField_cmdOfFields (op : BitVec 4) (rsv : BitVec 12) (ev : EventWord) :
    CmdWord.evField (cmdOfFields op rsv ev) = ev := by
  unfold cmdOfFields CmdWord.evField
  ext i hi
  simp only [BitVec.getElem_extractLsb', BitVec.getLsbD_append]
  rw [if_pos (by omega), ← BitVec.getLsbD_eq_getElem]
  congr 1; omega

/-- A command word is its three fields (R77). -/
theorem cmd_of_its_fields (w : CmdWord) :
    cmdOfFields (CmdWord.opField w) (CmdWord.rsvField w) (CmdWord.evField w) = w := by
  unfold cmdOfFields CmdWord.opField CmdWord.rsvField CmdWord.evField
  ext i hi
  simp only [BitVec.getElem_append, BitVec.getElem_extractLsb']
  split <;> [skip; split] <;>
    rw [BitVec.getLsbD_eq_getElem (by omega)] <;> congr 1 <;> omega

/-- The command word of a command, by its fields (R77). -/
theorem cmdWord_eq (i : Instr) : i.cmdWord = cmdOfFields i.opCode 0 i.evOperand := rfl

/-- What the decoder reads from a word put together from its fields (R81). -/
theorem decode_cmdOfFields (op : BitVec 4) (rsv : BitVec 12) (ev : EventWord) (arg : U64) :
    decode ⟨cmdOfFields op rsv ev, arg⟩ =
      if rsv = 0 then
        match op.toNat with
        | 1 => .ok (.schedule ev arg)
        | 2 => .ok (.cancel ev arg)
        | 3 => .ok (.runNow ev arg)
        | 4 => ifNoEvent ev (.advance arg)
        | 5 => ifNoEvent ev (.done arg)
        | 6 => ifNoEvent ev (.abort arg)
        | _ => .error .reservedOp
      else .error .reservedBits := by
  rw [decode]
  simp only [opField_cmdOfFields, rsvField_cmdOfFields, evField_cmdOfFields]
  all_goals rfl

/-- An event word set into the low half of a word with zeros there: the assembler's `OP << 28 | EV` (R85). -/
theorem or_setWidth (op : BitVec 4) (ev : EventWord) :
    cmdOfFields op 0 0 ||| ev.setWidth 32 = cmdOfFields op 0 ev := by
  have h : ev.setWidth 32 = cmdOfFields 0 0 ev := by
    unfold cmdOfFields
    ext i hi
    rw [BitVec.getElem_setWidth, BitVec.getElem_append]
    split
    · exact BitVec.getLsbD_eq_getElem (by omega)
    · rw [BitVec.getLsbD_of_ge ev i (by omega), BitVec.getElem_append]
      split <;> simp
  rw [h]
  unfold cmdOfFields
  rw [BitVec.or_append, BitVec.or_append]
  congr 1
  · congr 1; exact BitVec.or_zero
  · exact BitVec.zero_or

/-- A mask and match over the three fields: the rows that leave EV free (R79). -/
theorem selects_high (op o : BitVec 4) (rsv : BitVec 12) (ev : EventWord) :
    (cmdOfFields op rsv ev &&& 0xFFFF0000 = cmdOfFields o 0 0) ↔ op = o ∧ rsv = 0 := by
  have hmask : (0xFFFF0000 : CmdWord) = cmdOfFields 0xF 0xFFF 0 := by decide
  have hand : cmdOfFields op rsv ev &&& 0xFFFF0000 = cmdOfFields op rsv 0 := by
    rw [hmask]
    unfold cmdOfFields
    rw [BitVec.and_append, BitVec.and_append]
    congr 1
    · congr 1
      · exact BitVec.and_allOnes
      · exact BitVec.and_allOnes
    · exact BitVec.and_zero
  rw [hand]
  constructor
  · intro h
    exact ⟨by simpa using congrArg CmdWord.opField h, by simpa using congrArg CmdWord.rsvField h⟩
  · rintro ⟨rfl, rfl⟩; rfl

/-- A mask and match over the three fields: the rows that ask for a zero EV (R79). -/
theorem selects_all (op o : BitVec 4) (rsv : BitVec 12) (ev : EventWord) :
    (cmdOfFields op rsv ev &&& 0xFFFFFFFF = cmdOfFields o 0 0) ↔ op = o ∧ rsv = 0 ∧ ev = 0 := by
  have hmask : (0xFFFFFFFF : CmdWord) = BitVec.allOnes 32 := by decide
  rw [hmask, BitVec.and_allOnes]
  constructor
  · intro h
    exact ⟨by simpa using congrArg CmdWord.opField h, by simpa using congrArg CmdWord.rsvField h,
      by simpa using congrArg CmdWord.evField h⟩
  · rintro ⟨rfl, rfl, rfl⟩; rfl

/-- Serialising a number in `k` bytes takes `k` bytes (R52). -/
@[simp] theorem littleEndian_length (k n : Nat) : (littleEndian k n).length = k := by
  induction k generalizing n with
  | zero => rfl
  | succ k ih => simp [littleEndian, ih]

/-- The bytes of a number that fits in them spell it (R52). -/
theorem ofLittleEndian_littleEndian (k : Nat) : ∀ n, n < 256 ^ k → ofLittleEndian (littleEndian k n) = n := by
  induction k with
  | zero => intro n hn; simp [littleEndian, ofLittleEndian]; omega
  | succ k ih =>
    intro n hn
    have : n / 256 < 256 ^ k := by rw [Nat.div_lt_iff_lt_mul (by decide)]; rw [Nat.pow_succ] at hn; exact hn
    simp only [littleEndian, ofLittleEndian, ih _ this, BitVec.toNat_ofNat]
    omega

end Sys2Proof.Laws
end

