-- ==== Sys2Proof/Laws/DrainPass.lean ====
section
/-! SUPPORT. What one turn of a whole drain pass does (spec/41_clock_and_dispatch.md R129, R136). -/

namespace Sys2Proof.Laws

open Sys2Proof.Machine

/-! Requests and handlers. -/

/-- Every effect an accepted request can have from `s`. -/
inductive RequestEffect (s : State) (r : Request) : State → Prop
  | command (i : Instr) (t : State) (hd : decode r = .ok i) (he : Effect s i t) : RequestEffect s r t
  | held (why : DecodeError) (hd : decode r = .error why) (hm : s.mode = .check ∨ s.mode = .fault) : RequestEffect s r s
  | illegal (why : DecodeError) (hd : decode r = .error why) (ha : s.Accepts) :
      RequestEffect s r (s.raise .illegalCommand none (CmdWord.recorded r.cmd))

/-- Every request answers a next state, and `afterRequest` is that state. -/
theorem accept_afterRequest (s : State) (r : Request) : s.acceptRequest r = .next (s.afterRequest r) := by
  have : ∃ t, s.acceptRequest r = .next t := by
    unfold State.acceptRequest
    split
    · next i _ => exact (exec_effect i s).imp fun _ h => h.1
    · exact ⟨_, rfl⟩
  obtain ⟨t, ht⟩ := this
  simp only [State.afterRequest, ht]

/-- A request that decodes has its command's effect. -/
theorem afterRequest_of_decode {s : State} {r : Request} {i : Instr} (hd : decode r = .ok i) :
    s.afterRequest r = s.afterCommand i := by
  have h : s.acceptRequest r = exec i s := by simp only [State.acceptRequest, hd]
  simp only [State.afterRequest, h, exec_afterCommand]

theorem effect_of_afterRequest {s t : State} {r : Request} (h : s.afterRequest r = t) : RequestEffect s r t := by
  cases hd : decode r with
  | ok i => exact .command i t hd (effect_of_afterCommand ((afterRequest_of_decode hd).symm.trans h))
  | error why =>
    have ht : s.illegalCommand r.cmd = t := by simpa only [State.afterRequest, State.acceptRequest, hd] using h
    subst ht
    rcases accepting_cases s (s.raise .illegalCommand none (CmdWord.recorded r.cmd)) with ⟨ha, h⟩ | ⟨hm, h⟩
    · rw [State.illegalCommand, h]; exact .illegal why hd ha
    · rw [State.illegalCommand, h]; exact .held why hd hm

/-- A request leaves the port alone. -/
@[simp] theorem afterRequest_port (s : State) (r : Request) : (s.afterRequest r).port = s.port := by
  generalize h : s.afterRequest r = t
  cases effect_of_afterRequest h with
  | command i t _ he => cases he <;> rfl
  | held | illegal => rfl

/-- The port's contents play no part in what a request does. -/
theorem afterRequest_with_port (s : State) (r : Request) (p : List PortItem) :
    ({ s with port := p } : State).acceptRequest r = .next { s.afterRequest r with port := p } := by
  cases hd : decode r with
  | ok i => simpa only [State.acceptRequest, hd, afterRequest_of_decode hd] using exec_with_port i s p
  | error why =>
    obtain ⟨c, sl, m, cu, f, fe, fv, fa, po⟩ := s
    cases m <;>
      simp only [State.acceptRequest, State.afterRequest, hd, State.illegalCommand, State.accepting, State.raise]

/-- Where a handler's requests can leave the block: CHECK or FAULT, and the port as it was. -/
theorem runHandler_ends {requests : List Request} : ∀ {s t : State}, runHandler s requests = some t →
    (t.mode = .check ∨ t.mode = .fault) ∧ t.port = s.port := by
  induction requests with
  | nil =>
    intro s t h
    unfold runHandler at h
    cases hm : s.mode <;> rw [hm] at h <;> cases h <;> simp [hm]
  | cons r rest ih =>
    intro s t h
    unfold runHandler at h
    cases hm : s.mode <;> rw [hm] at h
    · cases h
    · cases h
    · simpa using ih h
    · cases h; simp [hm]

/-! The pass. -/

/-- Every way a drain pass from `s` with one more unit of fuel ends in `t`. -/
inductive DrainEffect (H : Handler) (fuel : Nat) (s : State) : State → Prop
  | empty (h : s.qEmpty = true) : DrainEffect H fuel s (s.raise .queueEmpty none s.cycle)
  | ended (hne : s.qEmpty = false) (hfuture : ∀ j d', s.slot j = some d' → s.cycle < d') :
      DrainEffect H fuel s { s with mode := .idle }
  | faulted (h : SlotIndex) (d : U64) (t : State) (ha : s.arbitrate = s.dispatch h) (hslot : s.slot h = some d)
      (hdue : d ≤ s.cycle)
      (hr : runHandler (s.dispatch h) (H (Event.ofOrd h) (s.dispatch h)) = some t) (hm : t.mode = .fault) :
      DrainEffect H fuel s t
  | turned (h : SlotIndex) (d : U64) (u t : State) (ha : s.arbitrate = s.dispatch h) (hslot : s.slot h = some d)
      (hdue : d ≤ s.cycle)
      (hr : runHandler (s.dispatch h) (H (Event.ofOrd h) (s.dispatch h)) = some u) (hm : u.mode = .check)
      (ht : drain H fuel u = some t) : DrainEffect H fuel s t

/-- The arbiter's three outcomes as the ways a pass goes on. -/
theorem drain_effect {H : Handler} {fuel : Nat} {s t : State} (hd : drain H (fuel + 1) s = some t) :
    DrainEffect H fuel s t := by
  unfold drain at hd
  generalize ha : s.arbitrate = u at hd
  cases arbitrate_effect ha with
  | empty he => cases hd; exact .empty he
  | ended hne hf => cases hd; exact .ended hne hf
  | dispatched h d hslot _ hdue =>
    simp only [dispatch_mode, dispatch_cur] at hd
    obtain ⟨v, hr, hv⟩ := Option.bind_eq_some_iff.mp hd
    cases hm : v.mode <;> rw [hm] at hv
    · cases hv
    · exact .turned h d v t ha hslot hdue hr hm hv
    · cases hv
    · cases hv; exact .faulted h d _ ha hslot hdue hr hm

/-! Runs. -/

theorem run_succ {s t : State} (h : step s = .next t) (k : Nat) :
    Sys2Proof.core.run (k + 1) s = Sys2Proof.core.run k t := by
  have h' : Sys2Proof.core.step s = .next t := h
  simp only [Host.Core.run, h']

theorem run_add {k : Nat} {s t : State} (h : Sys2Proof.core.run k s = .next t) (l : Nat) :
    Sys2Proof.core.run (k + l) s = Sys2Proof.core.run l t := by
  induction k generalizing s with
  | zero => cases h; simp
  | succ k ih =>
    obtain ⟨u, hu, -⟩ := step_effect s
    rw [Nat.add_right_comm, run_succ hu]
    rw [run_succ hu] at h
    exact ih h

end Sys2Proof.Laws
end

