-- ==== Sys2Proof/Laws/Flags.lean ====
section
/-! SUPPORT. The derived flags as facts about the slots (spec/10_state.md R30). -/

namespace Sys2Proof.Laws

open Sys2Proof.Machine

theorem isDue_iff {s : State} {d : U64} : s.isDue d = true ↔ d ≤ s.cycle := by simp [State.isDue]

theorem due_iff {s : State} {i : SlotIndex} : s.due i = true ↔ ∃ d, s.slot i = some d ∧ d ≤ s.cycle := by
  unfold State.due
  cases s.slot i <;> simp [isDue_iff]

/-- Two predicates that agree away from one member of a duplicate-free list count alike, but for that member. -/
theorem countP_changed_at {α : Type} [DecidableEq α] {p q : α → Bool} {i : α} (hpq : ∀ j, j ≠ i → q j = p j) :
    ∀ {l : List α}, l.Nodup → i ∈ l →
      l.countP q + (if p i then 1 else 0) = l.countP p + (if q i then 1 else 0)
  | [], _, h => by simp at h
  | a :: l, hn, h => by
    have ⟨ha, hl⟩ := List.nodup_cons.mp hn
    by_cases hai : a = i
    · subst hai
      have : l.countP q = l.countP p := List.countP_congr fun j hj => by rw [hpq j (fun e => ha (e ▸ hj))]
      simp only [List.countP_cons, this]
      omega
    · have ih := countP_changed_at hpq hl ((List.mem_cons.mp h).resolve_left (Ne.symm hai))
      simp only [List.countP_cons, hpq a hai]
      omega

/-- COUNT after one slot is written (R30): one valid bit leaves the sum and one enters it. -/
theorem count_setSlot (s : State) (i : SlotIndex) (x : Option U64) :
    (s.setSlot i x).count + (if (s.slot i).isSome then 1 else 0) = s.count + (if x.isSome then 1 else 0) := by
  have h := countP_changed_at (p := fun j => (s.slot j).isSome) (q := fun j => ((s.setSlot i x).slot j).isSome)
    (i := i) (fun j hj => by rw [slot_setSlot_of_ne s x hj]) (List.nodup_finRange 55) (mem_allSlots i)
  simpa only [State.count, State.pending, List.countP_eq_length_filter, slot_setSlot_self, allSlots] using h

/-- COUNT is at most the number of slots (R30). -/
theorem count_le (s : State) : s.count ≤ 55 := by
  have := List.length_filter_le (fun i => (s.slot i).isSome) allSlots
  simpa [State.count, State.pending, allSlots] using this

/-- EMPTY exactly when COUNT is 0 (R30). -/
theorem count_eq_zero {s : State} : s.count = 0 ↔ s.qEmpty = true := by
  rw [qEmpty_iff, State.count, List.length_eq_zero_iff, List.eq_nil_iff_forall_not_mem]
  simp [mem_pending]

end Sys2Proof.Laws
end

