-- ==== Sys2Proof/Laws/PerInstr.lean ====
section
/-! SUPPORT. A statement about every command as syntax, one lemma per constructor: the command's word selects its own row
of the opcode table and no other (spec/30_encoding.md R79: "The rows are disjoint"). -/

namespace Sys2Proof.Laws.OneRow

/-- The rows that a command's word selects are exactly its own. -/
def Statement (i : Instr) : Prop :=
  (opcodeTable.filter fun row => row.selectedBy i.cmdWord).map OpcodeRow.mnemonic = [i.mnemonic]

/-- Which rows a word selects, by its fields. -/
theorem selectedBy_high (m : String) (o op : BitVec 4) (ev : EventWord) :
    OpcodeRow.selectedBy ⟨m, cmdOfFields o 0 0, 0xFFFF0000⟩ (cmdOfFields op 0 ev) = decide (op = o) := by
  rw [OpcodeRow.selectedBy, beq_eq_decide]
  exact decide_eq_decide.mpr ((selects_high op o 0 ev).trans (and_iff_left rfl))

theorem selectedBy_all (m : String) (o op : BitVec 4) (ev : EventWord) :
    OpcodeRow.selectedBy ⟨m, cmdOfFields o 0 0, 0xFFFFFFFF⟩ (cmdOfFields op 0 ev) = decide (op = o ∧ ev = 0) := by
  rw [OpcodeRow.selectedBy, beq_eq_decide]
  exact decide_eq_decide.mpr ((selects_all op o 0 ev).trans (by simp))

/-- The opcode table with its match column put together from fields. -/
theorem table_by_fields : opcodeTable =
    [⟨"SCHEDULE", cmdOfFields 1 0 0, 0xFFFF0000⟩, ⟨"CANCEL", cmdOfFields 2 0 0, 0xFFFF0000⟩,
      ⟨"RUN_NOW", cmdOfFields 3 0 0, 0xFFFF0000⟩, ⟨"ADVANCE", cmdOfFields 4 0 0, 0xFFFFFFFF⟩,
      ⟨"DONE", cmdOfFields 5 0 0, 0xFFFFFFFF⟩, ⟨"ABORT", cmdOfFields 6 0 0, 0xFFFFFFFF⟩] := by decide

/-- The rows that a word with a zero RSV field selects, row by row. -/
theorem selected_rows (op : BitVec 4) (ev : EventWord) :
    (opcodeTable.filter fun row => row.selectedBy (cmdOfFields op 0 ev)).map OpcodeRow.mnemonic =
      (if op = 1 then ["SCHEDULE"] else []) ++ (if op = 2 then ["CANCEL"] else []) ++
        (if op = 3 then ["RUN_NOW"] else []) ++ (if op = 4 ∧ ev = 0 then ["ADVANCE"] else []) ++
        (if op = 5 ∧ ev = 0 then ["DONE"] else []) ++ (if op = 6 ∧ ev = 0 then ["ABORT"] else []) := by
  rw [table_by_fields]
  simp only [List.filter_cons, List.filter_nil, selectedBy_high, selectedBy_all, decide_eq_true_eq]
  repeat' split
  all_goals rfl

theorem schedule (ev : EventWord) (delay : U64) : Statement (.schedule ev delay) := selected_rows 1 ev

theorem cancel (ev : EventWord) (arg : U64) : Statement (.cancel ev arg) := selected_rows 2 ev

theorem runNow (ev : EventWord) (arg : U64) : Statement (.runNow ev arg) := selected_rows 3 ev

theorem advance (n : U64) : Statement (.advance n) := selected_rows 4 0

theorem done (arg : U64) : Statement (.done arg) := selected_rows 5 0

theorem abort (info : U64) : Statement (.abort info) := selected_rows 6 0

end Sys2Proof.Laws.OneRow
end

