-- ==== Sys2Proof/Tests/Slice0.lean ====
section
/-! SUPPORT. Tests whose expected results are the spec's own tables and vectors (spec/95_test_vectors.md), and a witness
for the hypotheses of every obligation. -/

namespace Sys2Proof.Tests

open Sys2Proof.Machine Sys2Proof.Laws

/-! Small states. -/

/-- A state written as spec/95 writes it. -/
def st (cycle : U64) (mode : Mode) (cur : Option Event) (entries : List (Event × U64)) : State :=
  entries.foldl (fun s p => s.qInsert p.1 p.2) { State.reset with cycle := cycle, mode := mode, cur := cur }

/-- The same state with something on its port. -/
def withPort (s : State) (port : List PortItem) : State := { s with port := port }

/-- The pending entries, slot and due cycle, by ascending slot. -/
def entries (s : State) : List (Nat × Nat) := s.pending.map fun i => (i.val, ((s.slot i).getD 0).toNat)

/-- The state after one step. -/
def stepped (s : State) : State :=
  match step s with
  | .next t => t
  | .fault _ => s
  | .refused _ => s

theorem step_stepped (s : State) : step s = .next (stepped s) := by
  obtain ⟨t, h, -⟩ := step_effect s
  simp only [stepped, h]

/-- One step that takes a command word and its operand from the port. -/
def given (s : State) (cmd : CmdWord) (arg : U64) : State := stepped (s.present ⟨cmd, arg⟩)

/-- The fault record: code, recorded event, recorded argument. -/
def record (s : State) : FaultCode × Bool × EventWord × U64 := (s.fcode, s.fevValid, s.fev, s.farg)

/-! Well-formedness: an event-taking command with an illegal event word is refused (R73, E7, E9, E10). -/

theorem test_wellFormed_schedule : (Instr.schedule 0x0004 1).wellFormed = false ∧
    (Instr.schedule 0x0003 1).wellFormed = true := by decide

theorem test_wellFormed_cancel : (Instr.cancel 0xA000 0).wellFormed = false ∧
    (Instr.cancel 0x9021 0).wellFormed = true := by decide

theorem test_wellFormed_runNow : (Instr.runNow 0x1001 0).wellFormed = false ∧
    (Instr.runNow 0x1000 0).wellFormed = true := by decide

/-! Event words: vectors E7 to E17 are illegal, E19 is legal (R73). -/

theorem test_illegal_event_words :
    [0x0004, 0x0020, 0xA000, 0x1001, 0x0100, 0x8016, 0x8022, 0x8030, 0x6011, 0x4004, 0x9008].all
      (fun w => !EventWord.legal w) = true := by decide

theorem test_legal_event_words :
    [0x0003, 0x0013, 0x8007, 0x8015, 0x8021, 0x6010, 0x4013, 0x9007].all EventWord.legal = true := by decide

/-- R74: the words and ordinals of ten of its rows, one of each kind. -/
theorem test_event_table :
    (Event.dma 1 3).word = 0x0013 ∧ (Event.dma 1 3).ord = 7 ∧ Event.startNextLine.word = 0x1000 ∧
      Event.startNextLine.ord = 8 ∧ Event.hBlank.word = 0x2000 ∧ Event.hBlank.ord = 9 ∧ Event.vBlank.word = 0x3000 ∧
      Event.vBlank.ord = 10 ∧ (Event.timerOverflow 1 2).word = 0x4012 ∧ (Event.timerOverflow 1 2).ord = 17 ∧
      Event.cartridgeWordTransferred.word = 0x5000 ∧ Event.cartridgeWordTransferred.ord = 19 ∧
      (Event.cartridgeBlockEnded 1).word = 0x6010 ∧ (Event.cartridgeBlockEnded 1).ord = 21 ∧
      Event.generateAudioSample.word = 0x7000 ∧ Event.generateAudioSample.ord = 22 ∧
      (Event.stepAudioChannel (.tone 5)).word = 0x8015 ∧ (Event.stepAudioChannel (.tone 5)).ord = 36 ∧
      (Event.resetAudioChannel (.noise 1)).word = 0x9021 ∧ (Event.resetAudioChannel (.noise 1)).ord = 54 := by decide

/-! Decoding: words from spec/95, written out from R77's fields. -/

/-- Q1: OP 1, EV 0x2000, ARG 0x28. -/
theorem test_decode_schedule : decode ⟨0x10002000, 0x28⟩ = .ok (.schedule Event.hBlank.word 40) := by rfl

/-- Q10. -/
theorem test_decode_cancel : decode ⟨0x20003000, 0xDEAD⟩ = .ok (.cancel Event.vBlank.word 0xDEAD) := by rfl

/-- P2. -/
theorem test_decode_runNow : decode ⟨0x30000001, 0⟩ = .ok (.runNow (Event.dma 0 1).word 0) := by rfl

/-- C3. -/
theorem test_decode_advance : decode ⟨0x40000000, 0xE⟩ = .ok (.advance 14) := by rfl

/-- C4. -/
theorem test_decode_done : decode ⟨0x50000000, 0⟩ = .ok (.done 0) := by rfl

/-- C11. -/
theorem test_decode_abort : decode ⟨0x60000000, 3⟩ = .ok (.abort 3) := by rfl

/-- E1 to E6: reserved OP values, a reserved bit, an EV field where none is allowed. -/
theorem test_decode_reserved :
    decode ⟨0x00000000, 0⟩ = .error .reservedOp ∧ decode ⟨0x70000000, 0⟩ = .error .reservedOp ∧
      decode ⟨0xF0002000, 0⟩ = .error .reservedOp ∧ decode ⟨0x10012000, 0x28⟩ = .error .reservedBits ∧
      decode ⟨0x40002000, 5⟩ = .error .eventFieldNotZero ∧ decode ⟨0x50000001, 0⟩ = .error .eventFieldNotZero :=
  ⟨rfl, rfl, rfl, rfl, rfl, rfl⟩

/-- R52: little-endian words; CMD before ARG is assumption 8. -/
theorem test_decode_bytes :
    decodeBytes [0x00, 0x20, 0x00, 0x10, 0x28, 0, 0, 0, 0, 0, 0, 0, 0x77] = .ok (.schedule 0x2000 40, [0x77]) ∧
      decodeBytes [0x00, 0x20, 0x00, 0x10] = .error .truncated := ⟨rfl, rfl⟩

/-- The opcode table's numbering: bits 31:0 are CMD. -/
theorem test_decodeTableWord :
    decodeTableWord 32 0x10002000 = some (.schedule 0x2000 0) ∧ decodeTableWord 32 0x50000000 = some (.done 0) ∧
      decodeTableWord 96 (0x7 * 2 ^ 32 + 0x60000000) = some (.abort 7) ∧ decodeTableWord 32 0x70000000 = none :=
  ⟨rfl, rfl, rfl, rfl⟩

/-- The first step after reset runs the instruction placed for it (assumption 1). -/
theorem test_withFetchWord :
    entries (stepped (State.reset.withFetchWord 96 (0x28 * 2 ^ 32 + 0x10002000))) = [(9, 40)] := by decide

/-! SCHEDULE. -/

/-- Q3: displaced later; the entry for VBlank stays. -/
theorem test_schedule_displaces :
    entries (given (st 100 .idle none [(.hBlank, 140), (.vBlank, 300)]) 0x10002000 0x3E8) =
      [(9, 1100), (10, 300)] := by decide

/-- Q5 and Q6: the last sum that fits, and the first that does not. -/
theorem test_schedule_range :
    entries (given (st 100 .idle none []) 0x10002000 0xFFFFFFFFFFFFFF9B) = [(9, 0xFFFFFFFFFFFFFFFF)] ∧
      record (given (st 100 .idle none [(.hBlank, 140)]) 0x10002000 0xFFFFFFFFFFFFFF9C) =
        (.dueOverflow, true, 0x2000, 0xFFFFFFFFFFFFFF9C) ∧
      entries (given (st 100 .idle none [(.hBlank, 140)]) 0x10002000 0xFFFFFFFFFFFFFF9C) = [(9, 140)] := by decide

/-! CANCEL. -/

/-- Q7, Q8 and Q10. -/
theorem test_cancel_removes :
    entries (given (st 0 .idle none [(.hBlank, 140), (.vBlank, 300)]) 0x20002000 0) = [(10, 300)] ∧
      given (st 0 .idle none [(.vBlank, 300)]) 0x20002000 0 = st 0 .idle none [(.vBlank, 300)] ∧
      entries (given (st 0 .idle none [(.vBlank, 300)]) 0x20003000 0xDEAD) = [] := by decide

/-- E9: a KIND that does not exist is a fault, not a removal of nothing. -/
theorem test_cancel_illegal :
    record (given (st 7 .idle none [(.vBlank, 300)]) 0x2000A000 0) = (.illegalEvent, true, 0xA000, 0) := by decide

/-! RUN_NOW. -/

/-- Q13 and Q14: the counter, not an earlier due cycle; ARG is ignored. -/
theorem test_runNow_due :
    entries (given (st 500 .idle none [(.vBlank, 450)]) 0x30003000 0) = [(10, 500)] ∧
      entries (given (st 500 .idle none []) 0x30003000 0xFFFFFFFFFFFFFFFF) = [(10, 500)] := by decide

/-- Q11: due, and not dispatched. -/
theorem test_runNow_waits :
    let t := given (st 500 .idle none [(.startNextLine, 900)]) 0x30003000 0
    t.headEv = some 0x3000 ∧ t.headIsDue = true ∧ t.mode = .idle := by decide

/-! ADVANCE. -/

/-- C1 and C8. -/
theorem test_advance_idle :
    (given (st 90 .idle none [(.hBlank, 100)]) 0x40000000 9).cycle = 99 ∧
      (given (st 90 .idle none [(.hBlank, 100)]) 0x40000000 9).mode = .check ∧
      record (given (st 0xFFFFFFFFFFFFFFFF .idle none [(.vBlank, 5)]) 0x40000000 1) =
        (.cycleOverflow, false, 0, 1) := by decide

/-- C9 and C10: in a handler the mode stays, and an overflow records the running event. -/
theorem test_advance_handler :
    (given (st 104 .handler (some (.dma 0 1)) [(.vBlank, 300)]) 0x40000000 200).cycle = 304 ∧
      (given (st 104 .handler (some (.dma 0 1)) [(.vBlank, 300)]) 0x40000000 200).mode = .handler ∧
      record (given (st 0xFFFFFFFFFFFFFFF0 .handler (some (.dma 0 1)) []) 0x40000000 0x10) =
        (.cycleOverflow, true, 0x0001, 0x10) := by decide

/-! DONE. -/

/-- C4. -/
theorem test_done_returns :
    let t := given (st 100 .handler (some .hBlank) [(.vBlank, 300)]) 0x50000000 0
    t.mode = .check ∧ t.cur = none ∧ entries t = [(10, 300)] := by decide

/-- E20 and E6. -/
theorem test_done_idle :
    record (given (st 7 .idle none [(.vBlank, 300)]) 0x50000000 0) = (.protocol, false, 0, 0x50000000) ∧
      record (given (st 7 .idle none [(.vBlank, 300)]) 0x50000001 0) = (.illegalCommand, false, 0, 0x50000001) := by
  decide

/-! ABORT. -/

/-- C11. -/
theorem test_abort_handler :
    let t := given (st 556 .handler (some (.stepAudioChannel (.general 2))) []) 0x60000000 3
    record t = (.handlerAbort, true, 0x8002, 3) ∧ t.mode = .fault ∧ t.curValid = true := by decide

/-- E21: the word is recorded, not ARG. -/
theorem test_abort_idle :
    record (given (st 7 .idle none [(.vBlank, 300)]) 0x60000000 9) = (.protocol, false, 0, 0x60000000) := by decide

/-! Words that are no command, and the order of the tests. -/

/-- E4, E5 and E18. -/
theorem test_check_order :
    record (given (st 7 .idle none []) 0x10012000 0x28) = (.illegalCommand, false, 0, 0x10012000) ∧
      record (given (st 7 .idle none []) 0x40002000 5) = (.illegalCommand, false, 0, 0x40002000) ∧
      record (given (st 7 .idle none []) 0x1000A000 0xFFFFFFFFFFFFFFFF) =
        (.illegalEvent, true, 0xA000, 0xFFFFFFFFFFFFFFFF) := by decide

/-- E22 and C16. -/
theorem test_fault_sticky_and_reset :
    let f := given (st 7 .idle none [(.vBlank, 300)]) 0 0
    given f 0x10002000 1 = f ∧ given f 0x40000000 5 = f ∧ given f 0 0 = f ∧
      stepped (withPort f [.reset]) = State.reset := by decide

/-! The arbiter. -/

/-- C2: equality is due; the dispatch port and the handler select show it. -/
theorem test_arbitrate_equality :
    let t := stepped (st 100 .check none [(.hBlank, 100), (.vBlank, 300)])
    t.mode = .handler ∧ t.dispEv = some 0x2000 ∧ t.hsel = 0b0000000100 ∧ entries t = [(10, 300)] := by decide

/-- C12: due cycle first, event word second. -/
theorem test_arbitrate_order :
    (stepped (st 60 .check none
        [(.vBlank, 50), (.hBlank, 50), (.dma 1 0, 50), (.dma 0 3, 51), (.generateAudioSample, 1000)])).cur =
      some (.dma 1 0) ∧
    (stepped (st 60 .check none [(.dma 0 3, 51), (.vBlank, 50), (.generateAudioSample, 1000)])).cur = some .vBlank ∧
    (stepped (st 60 .check none [(.generateAudioSample, 1000)])).mode = .idle := by decide

/-- C5. -/
theorem test_arbitrate_empty : record (stepped (st 100 .check none [])) = (.queueEmpty, false, 0, 100) := by decide

/-! Ports, codes, assembler, environment. -/

/-- R38: S1 after Q1 (MODE 0, EMPTY 0, HEAD_IS_DUE 0, CUR_VALID 0, COUNT 1), and S1 and S8 in C2's end state. -/
theorem test_status :
    (given (st 100 .idle none []) 0x10002000 0x28).readStatus .status = 0x100 ∧
      (stepped (st 100 .check none [(.hBlank, 100), (.vBlank, 300)])).readStatus .status = 0x112 ∧
      (stepped (st 100 .check none [(.hBlank, 100), (.vBlank, 300)])).readStatus .pending = 0x400 := by decide +kernel

/-- C10: S6 is the recorded word with its valid bit at 16. -/
theorem test_status_fev :
    (given (st 0xFFFFFFFFFFFFFFF0 .handler (some (.dma 0 1)) []) 0x40000000 0x10).readStatus .fev = 0x10001 := by decide +kernel

/-- R26 and R181: the codes. -/
theorem test_codes :
    [Mode.idle, .check, .handler, .fault].map Mode.code = [0, 1, 2, 3] ∧
      [FaultCode.none, .queueEmpty, .handlerAbort, .illegalCommand, .illegalEvent, .protocol, .cycleOverflow,
        .dueOverflow].map FaultCode.code = [0, 1, 2, 3, 4, 5, 6, 7] := by decide

/-- P3, C11, R86: lines of assembler text and the words they stand for. -/
theorem test_assembler :
    assembleLine "SCHEDULE StepAudioChannel(Tone, 5), 40" = some [⟨0x10008015, 0x28⟩] ∧
      assembleLine "run_now(DMA(0, 1))" = some [⟨0x30000001, 0⟩] ∧
      assembleLine "ABORT 0x3 ; stop" = some [⟨0x60000000, 3⟩] ∧
      assembleLine "RESCHEDULE HBlank, 10" = some [⟨0x20002000, 0⟩, ⟨0x10002000, 0xA⟩] ∧
      assembleLine "SCHEDULE DMA(0, 4), 1" = none := by decide +kernel

/-- Table A. -/
theorem test_audioDelay :
    [0x0000, 0xFFFF, 0xFF00, 0xFDF3, 0x8000, 0x0001].map audioDelay =
      [none, some 1, some 256, some 525, some 32768, some 65535] := by decide

/-- S3: three units, every access one cycle. -/
theorem test_dmaTotal : dmaTotal [(1, 1), (1, 1), (1, 1)] = 8 := by decide

/-- The handlers of P1 to P5 keep the contract (R153, R156, R161, R163); so does P2's second line, which crosses into
vertical blank. -/
theorem test_contract_kept :
    let p : Periods := ⟨100, 60, 30, 30, 100, 60⟩
    handlerContract p ⟨.byItself, false⟩ .generateAudioSample [.schedule 0x7000 30, .done 0] = true ∧
      handlerContract p ⟨.byItself, false⟩ .startNextLine [.schedule 0x1000 100, .done 0] = true ∧
      handlerContract p ⟨.byItself, true⟩ .startNextLine [.schedule 0x1000 100, .runNow 0x3000 0, .done 0] = true ∧
      handlerContract p ⟨.byItself, true⟩ .vBlank [.runNow 0x0001 0, .done 0] = true ∧
      handlerContract p ⟨.byItself, true⟩ (.dma 0 1) [.advance 10, .done 0] = true ∧
      handlerContract p ⟨.byItself, true⟩ (.dma 0 1) [.runNow 0x8002 0, .cancel 0x8003 0, .advance 10, .done 0] = true ∧
      handlerContract p ⟨.byItself, true⟩ (.stepAudioChannel (.general 2)) [.abort 7] = true ∧
      handlerContract p ⟨.byStartNextLine, false⟩ .startNextLine [.schedule 0x1000 100, .schedule 0x2000 60, .done 0] =
        true := by decide +kernel

/-- P4's dropped re-arm; a VBlank trigger that is late, absent on the line that crosses, or made twice; a DMA handler that
arms its own event, arms an audio channel after its ADVANCE, or makes none (R153); an HBlank handler off its period; a VBlank handler that arms anything but DMA (R154, R156 to R158,
R161, R170). -/
theorem test_contract_broken :
    let p : Periods := ⟨100, 60, 30, 30, 100, 60⟩
    handlerContract p ⟨.byItself, false⟩ .generateAudioSample [.done 0] = false ∧
      handlerContract p ⟨.byItself, true⟩ .startNextLine [.schedule 0x1000 100, .schedule 0x3000 77, .done 0] = false ∧
      handlerContract p ⟨.byItself, true⟩ .startNextLine [.schedule 0x1000 100, .done 0] = false ∧
      handlerContract p ⟨.byItself, true⟩ .startNextLine
        [.schedule 0x1000 100, .runNow 0x3000 0, .runNow 0x3000 0, .done 0] = false ∧
      handlerContract p ⟨.byItself, false⟩ .startNextLine [.schedule 0x1000 100, .cancel 0x1000 0, .done 0] = false ∧
      handlerContract p ⟨.byItself, false⟩ (.dma 0 1) [.advance 10, .runNow 0x0001 0, .done 0] = false ∧
      handlerContract p ⟨.byItself, false⟩ (.dma 0 1) [.advance 10, .runNow 0x8002 0, .done 0] = false ∧
      handlerContract p ⟨.byItself, false⟩ (.dma 0 1) [.runNow 0x8002 0, .done 0] = false ∧
      handlerContract p ⟨.byItself, false⟩ .hBlank [.schedule 0x2000 99, .done 0] = false ∧
      handlerContract p ⟨.byItself, false⟩ .vBlank [.advance 1, .abort 0] = false ∧
      handlerContract p ⟨.byItself, false⟩ .vBlank [.runNow 0x1000 0, .done 0] = false := by decide +kernel

/-- The boot SCHEDULEs in either order, then ADVANCE; and an ADVANCE before them (R223 to R225). -/
theorem test_ownerContract :
    let p : Periods := ⟨100, 60, 30, 30, 100, 60⟩
    ownerContract p .byStartNextLine [.schedule 0x1000 100, .schedule 0x7000 30, .advance 29, .cancel 0x8002 0] = true ∧
      ownerContract p .byStartNextLine [.schedule 0x1000 100, .advance 29, .schedule 0x7000 30] = false ∧
      ownerContract p .byStartNextLine [.schedule 0x1000 100, .schedule 0x7000 30, .done 0] = false := by decide +kernel

/-- R52: Q1's CYCLE register, four bytes of STATUS after C2's dispatch (0x112). -/
theorem test_statusBytes :
    (st 100 .idle none []).statusBytes .cycle 8 = [100, 0, 0, 0, 0, 0, 0, 0] ∧
      (stepped (st 100 .check none [(.hBlank, 100), (.vBlank, 300)])).statusBytes .status 4 = [0x12, 0x01, 0, 0] := by
  decide +kernel

/-- R9, R85: an underscore separates, and does not make a numeral by itself (assumption 14). -/
theorem test_numeral :
    assembleLine "ADVANCE 1_000" = some [⟨0x40000000, 1000⟩] ∧ assembleLine "ADVANCE _" = none ∧
      assembleLine "ADVANCE 0x_" = none ∧ assembleLine "ADVANCE 0" = some [⟨0x40000000, 0⟩] := by decide +kernel

/-! Witnesses: for each obligation with hypotheses, states and operands that meet them, at the values where its clauses
meet. -/

/-- A handler that re-arms the heartbeat and otherwise only returns. -/
def rearmingScript (e : Event) : Script :=
  if e = .generateAudioSample then [.schedule Event.generateAudioSample.word 30, .done 0] else [.done 0]

def rearming : Handler := fun e _ => (rearmingScript e).requests

theorem no_reset_nothing {s : State} (h : s.port = []) : ∀ rest, s.port ≠ .reset :: rest := by
  rw [h]; exact fun _ h => nomatch h

theorem no_reset_command (s : State) (r : Request) : ∀ rest, (s.present r).port ≠ .reset :: rest := by
  intro rest h
  rw [present_port] at h
  cases h

theorem witness_ResetInputRestoresReset :
    (withPort (st 7 .fault none []) [.reset, .quiet]).port = .reset :: [.quiet] ∧
      (withPort (st 7 .handler (some .hBlank) []) [.reset]).port = .reset :: [] := by decide

theorem witness_StepRunsDecodedCommand :
    (State.reset.present ⟨0x40000000, 14⟩).port = .command ⟨0x40000000, 14⟩ :: [] ∧
      (State.reset.present ⟨0x40000000, 14⟩).mode ≠ .check ∧ decode ⟨0x40000000, 14⟩ = .ok (.advance 14) :=
  ⟨rfl, by decide, rfl⟩

theorem witness_PortReadinessRule :
    (withPort (st 7 .check none []) [.command ⟨0, 0⟩]).port = .command ⟨0, 0⟩ :: [] ∧
      (withPort (st 7 .check none []) [.command ⟨0, 0⟩]).mode = .check ∧
      (withPort (st 7 .fault none []) [.command ⟨0, 0⟩]).port = .command ⟨0, 0⟩ :: [] ∧
      (withPort (st 7 .fault none []) [.command ⟨0, 0⟩]).mode = .fault := by decide

theorem witness_BlockMovesByItselfOnlyInCheck :
    (st 7 .check none []).port = [] ∧ (st 7 .check none []).mode = .check ∧ (st 7 .handler none []).port = [] ∧
      (st 7 .handler none []).mode ≠ .check ∧ (withPort (st 7 .check none []) [.quiet]).port = .quiet :: [] ∧
      (withPort (st 7 .idle none []) [.quiet]).port = .quiet :: [] := by decide

/-- One command word for each branch, at the OP values where the branches meet: 0, 3, 4, 5, 6 and 7. -/
theorem witness_AcceptanceFollowsCheckOrder :
    (st 7 .fault none []).mode = .fault ∧ (st 7 .idle none []).Accepts ∧ (st 7 .handler none []).Accepts ∧
      (0x0001000 : CmdWord).extractLsb' 16 12 = 0 ∧ ((0x00001000 : CmdWord).extractLsb' 28 4).toNat = 0 ∧
      ((0x70001000 : CmdWord).extractLsb' 28 4).toNat = 7 ∧ (0x18000000 : CmdWord).extractLsb' 16 12 ≠ 0 ∧
      ((0x30001001 : CmdWord).extractLsb' 28 4).toNat = 3 ∧
      EventWord.legal ((0x30001001 : CmdWord).extractLsb' 0 16) = false ∧
      ((0x40001000 : CmdWord).extractLsb' 28 4).toNat = 4 ∧ (0x40001000 : CmdWord).extractLsb' 0 16 ≠ 0 ∧
      ((0x50000000 : CmdWord).extractLsb' 28 4).toNat = 5 ∧ ((0x60000000 : CmdWord).extractLsb' 28 4).toNat = 6 ∧
      (0x60000000 : CmdWord).extractLsb' 0 16 = 0 := by decide

/-- The last sum that fits and the first that does not; an event that is pending and one that is not. -/
theorem witness_ScheduleInsertsDueCycle :
    (st 100 .handler none [(.hBlank, 140)]).Accepts ∧
      (st 100 .handler none [(.hBlank, 140)]).cycle.toNat + (0xFFFFFFFFFFFFFF9B : U64).toNat < 2 ^ 64 ∧
      2 ^ 64 ≤ (st 100 .handler none [(.hBlank, 140)]).cycle.toNat + (0xFFFFFFFFFFFFFF9C : U64).toNat ∧
      ((st 100 .handler none [(.hBlank, 140)]).slot Event.hBlank.ord).isSome = true ∧
      (st 100 .handler none [(.hBlank, 140)]).slot Event.vBlank.ord = none := by decide

theorem witness_CancelRemovesEntry :
    (st 0 .idle none [(.hBlank, 140)]).Accepts ∧ (st 0 .idle none [(.hBlank, 140)]).slot Event.vBlank.ord = none ∧
      ((st 0 .idle none [(.hBlank, 140)]).slot Event.hBlank.ord).isSome = true := by decide

theorem witness_RunNowInsertsAtCycle : (st 500 .idle none [(.vBlank, 450)]).Accepts ∧
    (st 500 .handler (some .hBlank) [(.vBlank, 450)]).Accepts := by decide

theorem witness_AdvanceStartsPass :
    (st 0xFFFFFFFFFFFFFFFE .idle none []).mode = .idle ∧
      (st 0xFFFFFFFFFFFFFFFE .idle none []).cycle.toNat + (1 : U64).toNat < 2 ^ 64 ∧
      2 ^ 64 ≤ (st 0xFFFFFFFFFFFFFFFE .idle none []).cycle.toNat + (2 : U64).toNat := by decide

theorem witness_AdvanceInHandlerOnlyAdds :
    (st 0xFFFFFFFFFFFFFFF0 .handler (some (.dma 0 1)) []).mode = .handler ∧
      (st 0xFFFFFFFFFFFFFFF0 .handler (some (.dma 0 1)) []).cur = some (.dma 0 1) ∧
      (st 0xFFFFFFFFFFFFFFF0 .handler (some (.dma 0 1)) []).cycle.toNat + (0xF : U64).toNat < 2 ^ 64 ∧
      2 ^ 64 ≤ (st 0xFFFFFFFFFFFFFFF0 .handler (some (.dma 0 1)) []).cycle.toNat + (0x10 : U64).toNat := by decide

theorem witness_DoneReturnsToArbiter :
    (st 100 .handler (some .hBlank) []).mode = .handler ∧ (st 7 .idle none []).mode = .idle := by decide

theorem witness_AbortRecordsHandlerFault :
    (st 556 .handler (some .hBlank) []).mode = .handler ∧ (st 556 .handler (some .hBlank) []).cur = some .hBlank ∧
      (st 7 .idle none []).mode = .idle := by decide

/-- The legal word next to each of two illegal ones is legal. -/
theorem witness_IllegalEventFaults :
    (st 7 .idle none []).Accepts ∧ EventWord.legal 0x0004 = false ∧ EventWord.legal 0x0003 = true ∧
      EventWord.legal 0xA000 = false ∧ EventWord.legal 0x9021 = true := by decide

theorem witness_FaultModeDiscards :
    (st 7 .fault none []).mode = .fault ∧ (st 7 .fault none []).port = [] ∧
      (withPort (st 7 .fault none []) [.command ⟨0x50000000, 0⟩]).port = .command ⟨0x50000000, 0⟩ :: [] ∧
      PortItem.command ⟨0x50000000, 0⟩ ≠ .reset ∧ PortItem.quiet ≠ .reset := by decide

theorem witness_CancelTwiceIsCancelOnce :
    exec (.cancel Event.hBlank.word 0) (st 0 .idle none [(.hBlank, 140)]) =
      .next ((st 0 .idle none [(.hBlank, 140)]).afterCommand (.cancel Event.hBlank.word 0)) :=
  exec_afterCommand _ _

theorem witness_ScheduleDisplacesPending :
    (st 100 .idle none [(.hBlank, 140)]).Accepts ∧
      (st 100 .idle none [(.hBlank, 140)]).cycle.toNat + (0xFFFFFFFFFFFFFF9B : U64).toNat < 2 ^ 64 := by decide

theorem witness_RearmThenCancelLeavesNotPending :
    (st 104 .handler (some .hBlank) [(.vBlank, 300)]).mode = .handler ∧
      (st 104 .handler (some .hBlank) [(.vBlank, 300)]).cur = some .hBlank ∧
      (st 104 .handler (some .hBlank) [(.vBlank, 300)]).slot Event.hBlank.ord = none ∧
      (st 104 .handler (some .hBlank) [(.vBlank, 300)]).cycle.toNat + (100 : U64).toNat < 2 ^ 64 := by decide

theorem witness_EmptyStoreFaults :
    (st 100 .check none []).mode = .check ∧ (∀ rest, (st 100 .check none []).port ≠ .reset :: rest) ∧
      (∀ rest, ((st 100 .check none []).present ⟨0x50000000, 0⟩).port ≠ .reset :: rest) ∧
      (∀ i, (st 100 .check none []).slot i = none) ∧
      (st 100 .check none [(.vBlank, 300)]).slot Event.vBlank.ord = some 300 :=
  ⟨by decide, no_reset_nothing rfl, no_reset_command _ _, by decide, by decide⟩

/-- A test of every entry of a small state, read out of the options. -/
theorem all_entries {s : State} {p : SlotIndex → U64 → Bool} (h : (allSlots.all fun j => (s.slot j).all (p j)) = true) :
    ∀ j d, s.slot j = some d → p j d = true := by
  intro j d hj
  have := List.all_eq_true.mp h j (mem_allSlots j)
  rwa [hj] at this

/-- Due exactly now, with an entry of a higher ordinal due at the same cycle. -/
theorem witness_DispatchPopsHead :
    (st 100 .check none [(.hBlank, 100), (.vBlank, 100)]).mode = .check ∧
      (∀ rest, (st 100 .check none [(.hBlank, 100), (.vBlank, 100)]).port ≠ .reset :: rest) ∧
      (∀ rest, ((st 100 .check none [(.hBlank, 100), (.vBlank, 100)]).present ⟨0x50000000, 0⟩).port ≠ .reset :: rest) ∧
      (st 100 .check none [(.hBlank, 100), (.vBlank, 100)]).slot Event.hBlank.ord = some 100 ∧
      (100 : U64) ≤ (st 100 .check none [(.hBlank, 100), (.vBlank, 100)]).cycle ∧
      ∀ j d', (st 100 .check none [(.hBlank, 100), (.vBlank, 100)]).slot j = some d' →
        (100 : U64) < d' ∨ ((100 : U64) = d' ∧ Event.hBlank.ord ≤ j) :=
  ⟨by decide, no_reset_nothing rfl, no_reset_command _ _, by decide, by decide, fun j d' hj => of_decide_eq_true
    (all_entries (p := fun j d' => decide ((100 : U64) < d' ∨ ((100 : U64) = d' ∧ Event.hBlank.ord ≤ j)))
      (by decide) j d' hj)⟩

/-- Due one cycle later. -/
theorem witness_PassEndsWhenHeadIsFuture :
    (st 99 .check none [(.hBlank, 100)]).mode = .check ∧
      (∀ rest, (st 99 .check none [(.hBlank, 100)]).port ≠ .reset :: rest) ∧
      (∀ rest, ((st 99 .check none [(.hBlank, 100)]).present ⟨0x50000000, 0⟩).port ≠ .reset :: rest) ∧
      (∃ i d, (st 99 .check none [(.hBlank, 100)]).slot i = some d) ∧
      ∀ j d, (st 99 .check none [(.hBlank, 100)]).slot j = some d →
        (st 99 .check none [(.hBlank, 100)]).cycle < d :=
  ⟨by decide, no_reset_nothing rfl, no_reset_command _ _, ⟨Event.hBlank.ord, 100, by decide⟩, fun j d hj => of_decide_eq_true
    (all_entries (p := fun _ d => decide ((st 99 .check none [(.hBlank, 100)]).cycle < d)) (by decide) j d hj)⟩

/-- Each of the three outcomes, under this hardware's tie-break, which is a consistent one. -/
theorem witness_ArbiterUnderAnyTie :
    TiePolicy.Consistent lowestFirst ∧
      ((st 100 .check none [(.hBlank, 100)]).arbitrateWith lowestFirst).mode = .handler ∧
      ((st 99 .check none [(.hBlank, 100)]).arbitrateWith lowestFirst).mode = .idle ∧
      ((st 99 .check none []).arbitrateWith lowestFirst).mode = .fault :=
  ⟨lowestFirst_consistent, by decide, by decide, by decide⟩

/-- The entry is left due by DONE, dispatched by the arbiter, and cancelled. -/
theorem witness_DueEntrySurvivesUntilDispatched :
    let a := (st 60 .handler (some .hBlank) [(.vBlank, 60)]).present ⟨0x50000000, 0⟩
    let b := st 60 .check none [(.vBlank, 60)]
    let c := (st 60 .handler (some .hBlank) [(.vBlank, 60)]).present ⟨0x20003000, 0⟩
    a.mode = .handler ∧ a.due Event.vBlank.ord = true ∧ step a = .next (stepped a) ∧
      (∀ rest, a.port ≠ .reset :: rest) ∧ (stepped a).due Event.vBlank.ord = true ∧
      b.mode = .check ∧ b.due Event.vBlank.ord = true ∧ (stepped b).cur = some .vBlank ∧
      c.due Event.vBlank.ord = true ∧ (stepped c).due Event.vBlank.ord = false :=
  ⟨by decide, by decide, step_stepped _, no_reset_command _ _, by decide, by decide, by decide, by decide, by decide,
    by decide⟩

/-- A handler that goes on, one that faults, and one that returns. -/
theorem witness_HandlersDoNotNest :
    let a := (st 60 .handler (some .hBlank) [(.vBlank, 60)]).present ⟨0x40000000, 1⟩
    let b := (st 60 .handler (some .hBlank) [(.vBlank, 60)]).present ⟨0x60000000, 1⟩
    let c := (st 60 .handler (some .hBlank) [(.vBlank, 60)]).present ⟨0x50000000, 0⟩
    a.mode = .handler ∧ step a = .next (stepped a) ∧ (∀ rest, a.port ≠ .reset :: rest) ∧
      (stepped a).mode = .handler ∧ (stepped b).mode = .fault ∧ (stepped c).mode = .check :=
  ⟨by decide, step_stepped _, no_reset_command _ _, by decide, by decide, by decide⟩

/-- One step for each of the listed transitions. -/
theorem witness_ModeTransitionsAreListed :
    let a := (st 90 .idle none [(.hBlank, 100)]).present ⟨0x40000000, 10⟩
    let b := st 100 .check none [(.hBlank, 100)]
    let c := st 99 .check none [(.hBlank, 100)]
    let d := (st 100 .handler (some .hBlank) []).present ⟨0x50000000, 0⟩
    let e := (st 100 .idle none []).present ⟨0, 0⟩
    step a = .next (stepped a) ∧ (∀ rest, a.port ≠ .reset :: rest) ∧ (stepped a).mode ≠ a.mode ∧
      (stepped b).mode = .handler ∧ (stepped c).mode = .idle ∧ (stepped d).mode = .check ∧ d.mode = .handler ∧
      (stepped e).mode = .fault ∧ e.mode = .idle :=
  ⟨step_stepped _, no_reset_command _ _, by decide, by decide, by decide, by decide, by decide, by decide, by decide⟩

theorem witness_OnlyAdvanceMovesCounter :
    let a := (st 90 .idle none [(.hBlank, 100)]).present ⟨0x40000000, 10⟩
    step a = .next (stepped a) ∧ (∀ rest, a.port ≠ .reset :: rest) ∧ (stepped a).cycle ≠ a.cycle :=
  ⟨step_stepped _, no_reset_command _ _, by decide⟩

/-- One step for each writer of a slot. -/
theorem witness_StoreWritersAreListed :
    let a := (st 100 .idle none []).present ⟨0x10002000, 40⟩
    let b := (st 100 .idle none []).present ⟨0x30002000, 0⟩
    let c := (st 100 .idle none [(.hBlank, 140)]).present ⟨0x20002000, 0⟩
    let d := st 100 .check none [(.hBlank, 100)]
    step a = .next (stepped a) ∧ (∀ rest, a.port ≠ .reset :: rest) ∧
      (stepped a).slot Event.hBlank.ord ≠ a.slot Event.hBlank.ord ∧
      (stepped b).slot Event.hBlank.ord ≠ b.slot Event.hBlank.ord ∧
      (stepped c).slot Event.hBlank.ord ≠ c.slot Event.hBlank.ord ∧
      (stepped d).slot Event.hBlank.ord ≠ d.slot Event.hBlank.ord :=
  ⟨step_stepped _, no_reset_command _ _, by decide, by decide, by decide, by decide⟩

/-- One step for each of the seven causes. -/
theorem witness_EveryFaultHasItsCause :
    let a := st 100 .check none []
    step a = .next (stepped a) ∧ a.mode ≠ .fault ∧ (stepped a).mode = .fault ∧
      (stepped a).fcode = .queueEmpty ∧
      (given (st 100 .handler (some .hBlank) []) 0x60000000 3).fcode = .handlerAbort ∧
      (given (st 100 .idle none []) 0x70000000 3).fcode = .illegalCommand ∧
      (given (st 100 .idle none []) 0x10000004 3).fcode = .illegalEvent ∧
      (given (st 100 .idle none []) 0x50000000 3).fcode = .protocol ∧
      (given (st 100 .idle none []) 0x40000000 0xFFFFFFFFFFFFFF9C).fcode = .cycleOverflow ∧
      (given (st 100 .idle none []) 0x10000003 0xFFFFFFFFFFFFFF9C).fcode = .dueOverflow :=
  ⟨step_stepped _, by decide, by decide, by decide, by decide, by decide, by decide, by decide, by decide, by decide⟩

theorem witness_FaultingStepChangesOnlyRecord :
    let a := (st 100 .handler (some .hBlank) [(.vBlank, 300)]).present ⟨0x60000000, 3⟩
    step a = .next (stepped a) ∧ a.mode ≠ .fault ∧ (stepped a).mode = .fault :=
  ⟨step_stepped _, by decide, by decide⟩

theorem witness_StepKeepsInvariant :
    let a := (st 100 .handler (some .hBlank) [(.vBlank, 300)]).present ⟨0x60000000, 3⟩
    a.Inv ∧ step a = .next (stepped a) := ⟨by decide, step_stepped _⟩

theorem witness_EncodeDecodeRoundTrip : decode ⟨0x60000000, 3⟩ = .ok (.abort 3) := by rfl

/-- One word for each row of the table. -/
theorem witness_TableRowsDecode :
    opcodeTable.map (fun row => row.selectedBy (row.matchBits)) = [true, true, true, true, true, true] ∧
      (OpcodeRow.mk "SCHEDULE" 0x10000000 0xFFFF0000).selectedBy 0x1000FFFF = true ∧
      decode ⟨0x40000000, 1⟩ = .ok (.advance 1) := ⟨by decide, by decide, rfl⟩

/-- A head that is due, a head that is not, and no head. -/
theorem witness_DerivedFlagsFollowStore :
    (st 100 .idle none [(.hBlank, 100), (.vBlank, 100)]).headOrd = some Event.hBlank.ord ∧
      (st 100 .idle none [(.hBlank, 100)]).headIsDue = true ∧ (st 99 .idle none [(.hBlank, 100)]).headIsDue = false ∧
      (st 99 .idle none []).headOrd = none := by decide

theorem witness_StatusPortShowsState :
    (st 100 .idle none [(.hBlank, 100)]).headOrd = some Event.hBlank.ord ∧ (st 100 .idle none []).headValid = false ∧
      (st 100 .handler (some .hBlank) []).cur = some .hBlank ∧ (st 100 .idle none []).cur = none ∧
      (st 100 .idle none [(.hBlank, 100)]).slot Event.hBlank.ord = some 100 ∧
      (st 100 .idle none [(.hBlank, 100)]).slot Event.vBlank.ord = none := by decide

/-- The first and the last of the ten lines. -/
theorem witness_HandlerSelectIsOneHot :
    (st 100 .handler (some (.dma 0 0)) []).mode = .handler ∧ (st 100 .handler (some (.dma 0 0)) []).cur = some (.dma 0 0) ∧
      (st 100 .handler (some (.dma 0 0)) []).hsel.getLsbD 0 = true ∧
      (st 100 .handler (some (.resetAudioChannel (.noise 1))) []).hsel.getLsbD 9 = true ∧
      (st 100 .idle none []).hsel = 0 := by decide

/-- A pass of two dispatches that ends in IDLE. -/
theorem witness_BigStepMatchesSteps :
    let s := st 105 .check none [(.generateAudioSample, 60), (.startNextLine, 100)]
    s.mode = .check ∧ s.port = [] ∧ drain rearming 3 s = some (st 105 .idle none [(.generateAudioSample, 135)]) := by
  decide

/-- One pass that ends in IDLE and one that ends in FAULT. -/
theorem witness_PassEndingInIdleIsComplete :
    drain rearming 1 (st 99 .check none [(.hBlank, 100)]) = some (st 99 .idle none [(.hBlank, 100)]) ∧
      (drain (fun _ _ => [encode (.done 0)]) 2 (st 5 .check none [(.generateAudioSample, 5)])).map State.mode =
        some .fault := by
  decide

theorem witness_DoneOnlyPassEnds : (st 60 .check none [(.vBlank, 50)]).mode = .check := by decide

theorem rearming_keepsArmed : rearming.KeepsArmed .generateAudioSample := by
  intro e s
  refine ⟨rearmingScript e, rfl, ?_⟩
  unfold rearmingScript
  split
  · next h => exact ⟨rfl, rfl, by decide, by decide, fun _ => by decide⟩
  · next h => exact ⟨rfl, rfl, by decide, by decide, fun h' => absurd h' h⟩

/-- A pass that ends in IDLE, and one that runs out of the counter's range. -/
theorem witness_ArmedPassFaultsOnlyOnOverflow :
    rearming.KeepsArmed .generateAudioSample ∧
      (st 105 .check none [(.generateAudioSample, 60)]).mode = .check ∧
      ((st 105 .check none [(.generateAudioSample, 60)]).slot Event.generateAudioSample.ord).isSome = true ∧
      drain rearming 2 (st 105 .check none [(.generateAudioSample, 60)]) =
        some (st 105 .idle none [(.generateAudioSample, 135)]) ∧
      (drain rearming 2 (st 0xFFFFFFFFFFFFFFFF .check none [(.generateAudioSample, 60)])).map State.fcode =
        some .dueOverflow :=
  ⟨rearming_keepsArmed, by decide, by decide, by decide, by decide⟩

/-- A pass that a handler's undecodable word ends, with its DONE discarded, and one that an empty store ends. -/
theorem witness_PassFaultedInHandlerKeepsCur :
    let a := drain (fun _ _ => [⟨0x70000000, 0⟩, encode (.done 0)]) 2 (st 5 .check none [(.hBlank, 5)])
    let b := drain (fun _ _ => [encode (.done 0)]) 2 (st 5 .check none [(.hBlank, 5)])
    a.map State.mode = some .fault ∧ a.map State.fcode = some .illegalCommand ∧ a.map State.cur = some (some .hBlank) ∧
      b.map State.mode = some .fault ∧ b.map State.fcode = some .queueEmpty := by decide

/-- Both events, at the last sum that fits and the first that does not. -/
theorem witness_ContractRearmsPerpetualEvents :
    let p : Periods := ⟨100, 60, 30, 30, 100, 60⟩
    handlerContract p ⟨.byItself, false⟩ .generateAudioSample [.schedule 0x7000 30, .done 0] = true ∧
      handlerContract p ⟨.byItself, true⟩ .startNextLine [.schedule 0x1000 100, .runNow 0x3000 0, .done 0] = true ∧
      aborts [.schedule 0x1000 100, .runNow 0x3000 0, .done 0] = false ∧
      (st 0xFFFFFFFFFFFFFFE1 .handler none []).mode = .handler ∧
      (st 0xFFFFFFFFFFFFFFE1 .handler none []).cycle.toNat + p.sample.toNat < 2 ^ 64 ∧
      2 ^ 64 ≤ (st 0xFFFFFFFFFFFFFFE1 .handler none []).cycle.toNat + p.line.toNat := by decide +kernel

theorem witness_BootArmsPerpetualEvents :
    Event.vBlank ≠ .generateAudioSample ∧ Event.vBlank ≠ .startNextLine ∧ Event.vBlank ≠ .hBlank := by decide

/-- The two ends of the range. -/
theorem witness_AudioDelayNegatesReload : (0xFFFF : BitVec 16) ≠ 0 ∧ (1 : BitVec 16) ≠ 0 := by decide

/-- The last byte of each word, and of a status transfer longer than the register. -/
theorem witness_SerialisedWordsAreLittleEndian : (3 : Nat) < 4 ∧ (7 : Nat) < 8 ∧ (9 : Nat) < 10 := by decide

end Sys2Proof.Tests
end

section
/-! The only way into FAULT is the fault entry `raise F(e, a)` (spec/60_exceptions.md R188): for a command, an ARBITRATE
and a whole step. O33 is its frame (spec/00_scope.md R12). -/

namespace Sys2Proof.FaultEntry

open Sys2Proof.Machine Sys2Proof.Laws

/-- A command that enters FAULT does so by the fault entry; every other effect keeps the mode or moves it elsewhere. -/
theorem exists_raise_of_effect {s t : State} {i : Instr} (he : Effect s i t) (hs : s.mode ≠ .fault)
    (ht : t.mode = .fault) : ∃ f e a, t = s.raise f e a := by
  cases he with
  | illegalEvent | dueOverflow | cycleOverflow | aborted | protocol => exact ⟨_, _, _, rfl⟩
  | held | inserted | removed | insertedNow => exact absurd ht hs
  | passStarted | clockMoved | returned => cases ht

/-- An ARBITRATE that enters FAULT does so by the fault entry. -/
theorem exists_raise_of_arbitrateEffect {s t : State} (he : ArbitrateEffect s t) (ht : t.mode = .fault) :
    ∃ f e a, t = s.raise f e a := by
  cases he with
  | empty => exact ⟨_, _, _, rfl⟩
  | dispatched | ended => cases ht

/-- A step that enters FAULT is a fault entry, up to what the transaction leaves on the port. -/
theorem exists_raise_of_stepEffect {s t : State} (he : StepEffect s t) (hs : s.mode ≠ .fault)
    (ht : t.mode = .fault) : ∃ f e a p, t = { s.raise f e a with port := p } := by
  cases he with
  | reset => cases ht
  | arbitrated p =>
    obtain ⟨f, e, a, h⟩ := exists_raise_of_arbitrateEffect (arbitrate_effect rfl) ht
    exact ⟨f, e, a, p, by rw [h]⟩
  | waited => exact absurd ht hs
  | command r rest i u _ _ _ hu =>
    obtain ⟨f, e, a, h⟩ := exists_raise_of_effect hu hs ht
    exact ⟨f, e, a, rest, by rw [h]⟩
  | discarded _ _ _ _ hm => exact absurd hm hs
  | illegal => exact ⟨_, _, _, _, rfl⟩

/-- Settles O33: the step is a fault entry, and `raise` writes neither the counter, nor a slot, nor `cur`. -/
theorem faultingStepChangesOnlyRecord : Obligations.FaultingStepChangesOnlyRecord := by
  intro s t hstep hs ht
  obtain ⟨f, e, a, p, rfl⟩ := exists_raise_of_stepEffect (effect_of_step hstep) hs ht
  exact ⟨rfl, fun _ => rfl, rfl⟩

end Sys2Proof.FaultEntry
end

section
/-! The invariant of the reachable states (spec/10_state.md R42): what it says outside FAULT, and what a fault entry asks
of it. -/

namespace Sys2Proof.Invariant

open Sys2Proof.Machine Sys2Proof.Laws

/-- The fault record as reset leaves it (R28, R41). -/
abbrev RecordClear (s : State) : Prop := s.fcode = .none ∧ s.fevValid = false ∧ s.fev = 0 ∧ s.farg = 0

/-- Outside FAULT a clear fault record and a `cur_valid` that follows the mode are enough for the invariant. -/
theorem inv_of_recordClear {s : State} (hm : s.mode ≠ .fault) (hrec : RecordClear s) (hcur : s.CurAgrees) : s.Inv := by
  obtain ⟨hnone, hvalid, hfev, harg⟩ := hrec
  refine ⟨⟨fun h => absurd h hm, fun h => absurd hnone h⟩, hcur, fun h => ?_, fun _ => hfev, fun _ => ⟨hvalid, harg⟩⟩
  exact absurd (hvalid.symm.trans h) Bool.false_ne_true

/-- Outside FAULT the invariant keeps the fault record clear. -/
theorem recordClear_of_inv {s : State} (hm : s.mode ≠ .fault) (hs : s.Inv) : RecordClear s := by
  obtain ⟨hcode, -, -, hempty, hclear⟩ := hs
  have hnone : s.fcode = .none := by_contra fun h => hm (hcode.mpr h)
  obtain ⟨hvalid, harg⟩ := hclear hnone
  exact ⟨hnone, hvalid, hempty hvalid, harg⟩

/-- The invariant says nothing of the port. -/
theorem inv_with_port {s : State} {p : List PortItem} (hs : s.Inv) : State.Inv { s with port := p } := hs

/-- What a fault may record for the invariant's sake: a code that is not 0, and an event word, if any, that is legal for
every code but ILLEGAL_EVENT (R42 item 5). -/
abbrev RecordAllowed (f : FaultCode) (e : Option EventWord) : Prop :=
  f ≠ .none ∧ ∀ w ∈ e, EventWord.legal w = true ↔ f ≠ .illegalEvent

/-- A fault entry with an allowed record meets the invariant, whatever the state before it. -/
theorem inv_raise {s : State} {f : FaultCode} {e : Option EventWord} {a : U64} (h : RecordAllowed f e) :
    (s.raise f e a).Inv := by
  obtain ⟨hf, he⟩ := h
  refine ⟨⟨fun _ => hf, fun _ => rfl⟩, ⟨nofun, nofun, nofun⟩, ?_, ?_, fun h => absurd h hf⟩
  · cases e with
    | none => nofun
    | some w => exact fun _ => he w rfl
  · cases e with
    | none => exact fun _ => rfl
    | some w => nofun

/-- The event word in `cur` is legal (R27, R83). -/
theorem curWord_legal {s : State} {w : EventWord} (h : s.curWord = some w) : EventWord.legal w = true := by
  obtain ⟨e, -, rfl⟩ := Option.map_eq_some_iff.mp h
  exact word_legal e

/-- The event word that an overflowing ADVANCE records is legal. -/
theorem runningWord_legal {s : State} {w : EventWord} (h : s.runningWord = some w) : EventWord.legal w = true := by
  unfold State.runningWord at h
  cases hm : s.mode <;> rw [hm] at h
  case handler => exact curWord_legal h
  all_goals cases h

/-- IDLE and HANDLER are not FAULT. -/
theorem ne_fault_of_accepts {s : State} (h : s.Accepts) : s.mode ≠ .fault := by
  rcases h with h | h <;> simp [h]

/-- Every effect of a command keeps the invariant: a fault entry by its record, and every other effect because it leaves
the fault record clear and lets `cur` follow the mode. -/
theorem inv_of_effect {s t : State} {i : Instr} (he : Effect s i t) (hs : s.Inv) : t.Inv := by
  have ⟨_, hcur, _⟩ := hs
  have ⟨hrunning, hidle, _⟩ := hcur
  have hrec := fun hm : s.mode ≠ .fault => recordClear_of_inv hm hs
  cases he with
  | held => exact hs
  | illegalEvent _ _ _ hl => exact inv_raise ⟨nofun, by simp [hl]⟩
  | dueOverflow e => exact inv_raise ⟨nofun, by simp⟩
  | cycleOverflow => exact inv_raise ⟨nofun, fun w hw => by simp [runningWord_legal hw]⟩
  | aborted => exact inv_raise ⟨nofun, fun w hw => by simp [curWord_legal hw]⟩
  | protocol => exact inv_raise ⟨nofun, nofun⟩
  | inserted _ _ ha | removed _ _ ha | insertedNow _ _ ha =>
    have hm := ne_fault_of_accepts ha
    exact inv_of_recordClear hm (hrec hm) hcur
  | passStarted _ hm =>
    exact inv_of_recordClear nofun (hrec (by simp [hm])) ⟨nofun, nofun, fun _ => hidle hm⟩
  | clockMoved _ hm =>
    exact inv_of_recordClear nofun (hrec (by simp [hm])) ⟨fun _ => hrunning hm, nofun, nofun⟩
  | returned _ hm =>
    exact inv_of_recordClear nofun (hrec (by simp [hm])) ⟨nofun, nofun, fun _ => rfl⟩

/-- Every outcome of an ARBITRATE keeps the invariant. -/
theorem inv_of_arbitrateEffect {s t : State} (he : ArbitrateEffect s t) (hm : s.mode = .check) (hs : s.Inv) : t.Inv := by
  have hrec := recordClear_of_inv (by simp [hm]) hs
  cases he with
  | empty => exact inv_raise ⟨nofun, nofun⟩
  | dispatched => exact inv_of_recordClear nofun hrec ⟨fun _ => rfl, nofun, nofun⟩
  | ended =>
    obtain ⟨-, ⟨-, -, hcheck⟩, -⟩ := hs
    exact inv_of_recordClear nofun hrec ⟨nofun, fun _ => hcheck hm, nofun⟩

/-- Settles O3: the fault record is clear, and `cur_valid` is 0 in IDLE. -/
theorem resetMeetsInvariant : Obligations.ResetMeetsInvariant :=
  inv_of_recordClear nofun ⟨rfl, rfl, rfl, rfl⟩ ⟨nofun, fun _ => rfl, nofun⟩

/-- Every effect of a step keeps the invariant. -/
theorem inv_of_stepEffect {s t : State} (he : StepEffect s t) (hs : s.Inv) : t.Inv := by
  cases he with
  | reset => exact inv_with_port resetMeetsInvariant
  | arbitrated _ _ hm => exact inv_with_port (inv_of_arbitrateEffect (arbitrate_effect rfl) hm hs)
  | waited | discarded => exact inv_with_port hs
  | command _ _ _ _ _ _ _ hu => exact inv_with_port (inv_of_effect hu hs)
  | illegal => exact inv_with_port (inv_raise ⟨nofun, nofun⟩)

/-- Settles O34: one case for each effect of a step. -/
theorem stepKeepsInvariant : Obligations.StepKeepsInvariant :=
  fun _ _ hs hstep => inv_of_stepEffect (effect_of_step hstep) hs

end Sys2Proof.Invariant
end

section
/-! The command port (spec/10_state.md R32, R33; spec/30_encoding.md R81): in every mode but CHECK a presented command is
accepted, and in FAULT it is discarded. -/

namespace Sys2Proof.CommandPort

open Sys2Proof.Machine Sys2Proof.Laws

/-- CHECK is the one mode whose port is not ready (R33). -/
theorem cmdReady_iff {s : State} : s.cmdReady = true ↔ s.mode ≠ .check := by
  cases h : s.mode <;> simp [State.cmdReady, h]

/-- On a ready port the step accepts what is presented (R33, R81). -/
theorem step_of_command {s : State} {r : Request} {rest : List PortItem} (hp : s.port = .command r :: rest)
    (hm : s.mode ≠ .check) : step s = ({ s with port := rest } : State).acceptRequest r := by
  simp only [step, hp, State.transact, if_pos (cmdReady_iff.mpr hm)]

/-- In FAULT every command, decodable or not, is discarded (R189). -/
theorem acceptRequest_of_fault {s : State} (hm : s.mode = .fault) (r : Request) : s.acceptRequest r = .next s := by
  cases hd : decode r with
  | ok i => simpa only [State.acceptRequest, hd] using exec_of_held (.inr hm) i
  | error why => simp only [State.acceptRequest, hd, State.illegalCommand, accepting_of_fault hm]

/-- In CHECK a presented command waits, unchanged, for one ARBITRATE (R33). -/
theorem step_of_waiting_command {s : State} {r : Request} {rest : List PortItem} (hp : s.port = .command r :: rest)
    (hm : s.mode = .check) : step s = .next s.arbitrate := by
  have hleft : s.portLeft = s.arbitrate.port := by simp only [State.portLeft, hp, arbitrate_port]
  rw [step_of_check hm (by simp [hp]), hleft]

/-- Settles O4: on a ready port, acceptance is decoding and the command's own rule. -/
theorem stepRunsDecodedCommand : Obligations.StepRunsDecodedCommand := by
  intro s r rest i hp hm hd
  rw [step_of_command hp hm, State.acceptRequest, hd]

/-- Settles O6: by the port's readiness, the waiting in CHECK and the discarding in FAULT. -/
theorem portReadinessRule : Obligations.PortReadinessRule := by
  intro s
  refine ⟨?_, fun r rest hp => ⟨fun hm => ?_, fun hm => ?_⟩⟩
  · rw [cmdReady_iff]
    cases s.mode <;> simp
  · exact ⟨step_of_waiting_command hp hm, arbitrate_port s, arbitrate_mode_ne_check s⟩
  · rw [step_of_command hp (by simp [hm])]
    exact acceptRequest_of_fault (s := { s with port := rest }) hm r

end Sys2Proof.CommandPort
end

section
/-! The derived flags as facts about the slots (spec/10_state.md R30), and their values after reset (R41). -/

namespace Sys2Proof.DerivedFlags

open Sys2Proof.Machine Sys2Proof.Laws

/-- Slot `i` holds the due cycle `d`, and `(d, i)` is the least pair of the store in the order of R126. -/
abbrev LeastEntry (s : State) (i : SlotIndex) (d : U64) : Prop :=
  s.slot i = some d ∧ ∀ j d', s.slot j = some d' → d < d' ∨ (d = d' ∧ i ≤ j)

/-- The head is a least entry (R126). -/
theorem leastEntry_of_qHead {s : State} {i : SlotIndex} {d : U64} (h : s.qHead = some (i, d)) : LeastEntry s i d := by
  obtain ⟨hslot, hleast⟩ := qHead_spec h
  refine ⟨hslot, fun j d' hj => ?_⟩
  rcases Nat.lt_or_eq_of_le (hleast j d' hj) with hlt | heq
  · exact .inl hlt
  · obtain rfl := BitVec.eq_of_toNat_eq heq
    exact .inr ⟨rfl, qHead_lowest h j hj⟩

/-- The store has at most one least entry. -/
theorem leastEntry_unique {s : State} {i j : SlotIndex} {d d' : U64} (hi : LeastEntry s i d) (hj : LeastEntry s j d') :
    i = j := by
  obtain ⟨hi, hil⟩ := hi
  obtain ⟨hj, hjl⟩ := hj
  rcases hil j d' hj with hlt | ⟨rfl, hij⟩
  · rcases hjl i d hi with hgt | ⟨rfl, -⟩
    · exact absurd hgt (BitVec.lt_asymm hlt)
    · exact absurd hlt (BitVec.lt_irrefl _)
  · rcases hjl i d hi with hgt | ⟨-, hji⟩
    · exact absurd hgt (BitVec.lt_irrefl _)
    · exact le_antisymm hij hji

/-- A store with an entry has a head. -/
theorem exists_qHead {s : State} {i : SlotIndex} {d : U64} (h : s.slot i = some d) : ∃ j d', s.qHead = some (j, d') := by
  cases hq : s.qHead with
  | some p => exact ⟨p.1, p.2, rfl⟩
  | none => simp [qEmpty_iff.mp (qHead_eq_none.mp hq) i] at h

/-- `QHead()` is the least entry (R126). -/
theorem qHead_eq_some {s : State} {i : SlotIndex} {d : U64} : s.qHead = some (i, d) ↔ LeastEntry s i d := by
  refine ⟨leastEntry_of_qHead, fun h => ?_⟩
  have ⟨hslot, _⟩ := h
  obtain ⟨j, d', hq⟩ := exists_qHead hslot
  have hleast := leastEntry_of_qHead hq
  obtain rfl := leastEntry_unique h hleast
  have ⟨hslot', _⟩ := hleast
  obtain rfl : d = d' := Option.some.inj (hslot.symm.trans hslot')
  exact hq

/-- HEAD_ORD is the slot of the least entry (R30). -/
theorem headOrd_eq_some {s : State} {i : SlotIndex} : s.headOrd = some i ↔ ∃ d, LeastEntry s i d := by
  simp only [State.headOrd, Option.map_eq_some_iff, Prod.exists, exists_and_right, ← qHead_eq_some, exists_eq_right]

/-- HEAD_DUE is the due cycle of the least entry (R30). -/
theorem headDue_eq_some {s : State} {d : U64} : s.headDue = some d ↔ ∃ i, LeastEntry s i d := by
  simp only [State.headDue, Option.map_eq_some_iff, Prod.exists, exists_eq_right, ← qHead_eq_some]

/-- With a head, HEAD_EV is its slot's event word and HEAD_DUE what its slot holds (R30). -/
theorem headEv_headDue_of_headOrd {s : State} {i : SlotIndex} (h : s.headOrd = some i) :
    s.headEv = some (Event.ofOrd i).word ∧ s.headDue = s.slot i := by
  obtain ⟨d, hleast⟩ := headOrd_eq_some.mp h
  have ⟨hslot, _⟩ := hleast
  exact ⟨by rw [State.headEv, h, Option.map_some], by rw [hslot, headDue_eq_some]; exact ⟨i, hleast⟩⟩

/-- HEAD_VALID exactly when some slot is valid (R30). -/
theorem headValid_iff {s : State} : s.headValid = true ↔ ∃ i d, s.slot i = some d := by
  rw [State.headValid, Bool.not_eq_true', ← Bool.not_eq_true, qEmpty_iff, not_forall]
  simp only [← Option.isSome_iff_exists, Option.isSome_iff_ne_none, ne_eq]

/-- HEAD_IS_DUE exactly when HEAD_DUE is at or below the counter (R30, R127). -/
theorem headIsDue_iff {s : State} : s.headIsDue = true ↔ ∃ d, s.headDue = some d ∧ d ≤ s.cycle := by
  unfold State.headIsDue
  cases s.headDue <;> simp [isDue_iff]

/-- HEAD_IS_DUE exactly when some slot is due, because the head has the least due cycle (R30). -/
theorem headIsDue_iff_due {s : State} : s.headIsDue = true ↔ ∃ i, s.due i = true := by
  simp only [headIsDue_iff, headDue_eq_some, due_iff]
  constructor
  · rintro ⟨d, ⟨i, hslot, -⟩, hdue⟩
    exact ⟨i, d, hslot, hdue⟩
  · rintro ⟨i, d, hslot, hdue⟩
    obtain ⟨j, d', hq⟩ := exists_qHead hslot
    exact ⟨d', ⟨j, qHead_eq_some.mp hq⟩, BitVec.le_trans ((qHead_spec hq).2 i d hslot) hdue⟩

/-- COUNT as the size of the set of valid slots (R30). -/
theorem count_eq_card (s : State) :
    s.count = (Finset.univ.filter fun i : SlotIndex => (s.slot i).isSome = true).card := by
  have hnodup : s.pending.Nodup := (List.nodup_finRange 55).filter _
  rw [State.count, ← List.toFinset_card_of_nodup hnodup]
  congr 1
  ext i
  simp [mem_pending]

/-- Settles O42: flag by flag. -/
theorem derivedFlagsFollowStore : Obligations.DerivedFlagsFollowStore := by
  intro s
  refine ⟨qEmpty_iff, count_eq_card s, rfl, fun i => ?_, fun i => headEv_headDue_of_headOrd, fun i => due_iff, ?_,
    headIsDue_iff_due⟩
  · exact headOrd_eq_some
  · rw [headIsDue_iff]
    refine ⟨fun h => ⟨?_, h⟩, And.right⟩
    obtain ⟨d, hd, -⟩ := h
    obtain ⟨i, hslot, -⟩ := headDue_eq_some.mp hd
    exact headValid_iff.mpr ⟨i, d, hslot⟩

/-- Settles O1: no slot of the reset store is valid, and the other values are the fields'. -/
theorem resetLeavesStatedValues : Obligations.ResetLeavesStatedValues := by
  have hempty : State.reset.qEmpty = true := qEmpty_iff.mpr slot_reset
  have hnotDue : State.reset.headIsDue = false := by
    rw [← Bool.not_eq_true, headIsDue_iff_due]
    simp [State.due]
  exact ⟨rfl, slot_reset, rfl, rfl, rfl, rfl, rfl, rfl, rfl, hempty, count_eq_zero.mpr hempty, by
    simp [State.headValid, hempty], hnotDue, rfl, rfl, rfl⟩

end Sys2Proof.DerivedFlags
end

section
/-! The status registers field by field (spec/10_state.md R38), and the dispatch port with its one-hot handler select
(R34, R35). -/

namespace Sys2Proof.OutputPorts

open Sys2Proof.Machine Sys2Proof.Laws Sys2Proof.DerivedFlags

/-- The lowest bit of a word put together from a field and a flag is the flag. -/
theorem getLsbD_append_ofBool {n : Nat} (x : BitVec n) (b : Bool) : (x ++ BitVec.ofBool b).getLsbD 0 = b := by
  rw [BitVec.getLsbD_append, if_pos Nat.one_pos, BitVec.getLsbD_ofBool]
  exact Bool.true_and b

/-! S1: the fields of the status word, from the lowest. -/

theorem statusWord_mode (s : State) : s.statusWord.extractLsb' 0 2 = s.mode.code := by
  rw [State.statusWord, BitVec.extractLsb'_append_eq_of_add_le (by decide), BitVec.extractLsb'_eq_self]

theorem statusWord_empty (s : State) : s.statusWord.getLsbD 2 = s.emptyFlag := by
  rw [State.statusWord, BitVec.getLsbD_append, if_neg (by decide), getLsbD_append_ofBool]

theorem statusWord_headIsDue (s : State) : s.statusWord.getLsbD 3 = s.headIsDue := by
  rw [State.statusWord]
  iterate 2 rw [BitVec.getLsbD_append, if_neg (by decide)]
  exact getLsbD_append_ofBool _ _

theorem statusWord_curValid (s : State) : s.statusWord.getLsbD 4 = s.curValid := by
  rw [State.statusWord]
  iterate 3 rw [BitVec.getLsbD_append, if_neg (by decide)]
  exact getLsbD_append_ofBool _ _

theorem statusWord_low_zeros (s : State) : s.statusWord.extractLsb' 5 3 = 0 := by
  rw [State.statusWord]
  iterate 4 rw [BitVec.extractLsb'_append_eq_of_le (by decide)]
  rw [BitVec.extractLsb'_append_eq_of_add_le (by decide), BitVec.extractLsb'_eq_self]

theorem statusWord_count (s : State) : (s.statusWord.extractLsb' 8 6).toNat = s.count := by
  have hbits : s.statusWord.extractLsb' 8 6 = BitVec.ofNat 6 s.count := by
    rw [State.statusWord]
    iterate 5 rw [BitVec.extractLsb'_append_eq_of_le (by decide)]
    rw [BitVec.extractLsb'_append_eq_of_add_le (by decide), BitVec.extractLsb'_eq_self]
  have hfits : s.count < 2 ^ 6 := Nat.lt_of_le_of_lt (count_le s) (by decide)
  rw [hbits, BitVec.toNat_ofNat, Nat.mod_eq_of_lt hfits]

theorem statusWord_high_zeros (s : State) : s.statusWord.extractLsb' 14 18 = 0 := by
  rw [State.statusWord]
  iterate 6 rw [BitVec.extractLsb'_append_eq_of_le (by decide)]
  exact BitVec.extractLsb'_eq_self

/-! S6. -/

theorem fevWord_fev (s : State) : s.fevWord.extractLsb' 0 16 = if s.fevValid then s.fev else 0 := by
  rw [State.fevWord, BitVec.extractLsb'_append_eq_of_add_le (by decide), BitVec.extractLsb'_eq_self]

theorem fevWord_valid (s : State) : s.fevWord.getLsbD 16 = s.fevValid := by
  rw [State.fevWord, BitVec.getLsbD_append, if_neg (by decide)]
  simp

/-- The zero extension of the port keeps S1's fields. -/
theorem readStatus_status_field (s : State) {start len : Nat} (h : start + len ≤ 64) :
    (s.readStatus .status).extractLsb' start len = s.statusWord.extractLsb' start len :=
  BitVec.extractLsb'_setWidth_of_le h

theorem readStatus_status_bit (s : State) {i : Nat} (h : i < 64) :
    (s.readStatus .status).getLsbD i = s.statusWord.getLsbD i := by
  simp [State.readStatus, h]

/-! The other registers. -/

/-- S2 and S3 show the head's event word and due cycle (R38). -/
theorem readStatus_head {s : State} {i : SlotIndex} (h : s.headOrd = some i) :
    s.readStatus .headEv = (Event.ofOrd i).word.setWidth 64 ∧ s.slot i = some (s.readStatus .headDue) := by
  obtain ⟨d, hslot, hleast⟩ := headOrd_eq_some.mp h
  obtain ⟨hev, hdue⟩ := headEv_headDue_of_headOrd h
  simp [State.readStatus, hev, hdue, hslot]

/-- S2 and S3 read 0 while there is no head (R38). -/
theorem readStatus_no_head {s : State} (h : s.headValid = false) :
    s.readStatus .headEv = 0 ∧ s.readStatus .headDue = 0 := by
  have hhead : s.qHead = none := qHead_eq_none.mpr (by simpa [State.headValid] using h)
  simp [State.readStatus, State.headEv, State.headDue, State.headOrd, hhead]

/-- Bit `i` of S8 is `v[i]` (R38). -/
theorem readStatus_pending_bit (s : State) (i : SlotIndex) :
    (s.readStatus .pending).getLsbD i = (s.slot i).isSome := by
  have hi : i.val < 64 := by omega
  simp [State.readStatus, State.pendingBits, hi]

/-- Settles O43: register by register. -/
theorem statusPortShowsState : Obligations.StatusPortShowsState := by
  intro s
  refine ⟨rfl, ?_, ?_, ?_, ?_, ?_, ?_, ?_, fun i => readStatus_head, readStatus_no_head, fun e he => ?_, fun he => ?_, rfl,
    ?_, ?_, rfl, readStatus_pending_bit s, fun i d hi => ?_, fun i hi => ?_⟩
  · rw [readStatus_status_field s (by decide), statusWord_mode]
  · rw [readStatus_status_bit s (by decide), statusWord_empty]
  · rw [readStatus_status_bit s (by decide), statusWord_headIsDue]
  · rw [readStatus_status_bit s (by decide), statusWord_curValid, State.curValid]
  · rw [readStatus_status_field s (by decide), statusWord_low_zeros]
  · rw [readStatus_status_field s (by decide), statusWord_count]
  · rw [readStatus_status_field s (by decide), statusWord_high_zeros]
  · simp [State.readStatus, State.curWord, he]
  · simp [State.readStatus, State.curWord, he]
  · rw [State.readStatus, BitVec.extractLsb'_setWidth_of_le (by decide), fevWord_fev]
  · rw [State.readStatus, BitVec.getLsbD_setWidth, fevWord_valid]
    exact Bool.true_and _
  · simp [State.readStatus, hi]
  · simp [State.readStatus, hi]

/-! The dispatch port. -/

theorem dispValid_iff {s : State} : s.dispValid = true ↔ s.mode = .handler := by
  simp [State.dispValid]

/-- DISP_EV in HANDLER (R34). -/
theorem dispEv_of_handler {s : State} (hm : s.mode = .handler) : s.dispEv = s.curWord :=
  if_pos (dispValid_iff.mpr hm)

/-- DISP_EV outside HANDLER (R34; assumption 13). -/
theorem dispEv_of_ne_handler {s : State} (hm : s.mode ≠ .handler) : s.dispEv = none :=
  if_neg (mt dispValid_iff.mp hm)

/-- There are ten event kinds (R71). -/
theorem kindCode_lt (k : EventKind) : k.code.toNat < 10 := by
  cases k <;> decide

/-- The KIND field of an event's word, as the bits R70 gives it. -/
theorem word_kindBits (e : Event) : e.word.extractLsb' 12 4 = e.kind.code := word_kindField e

/-- HSEL while a handler runs: the one line of its event's kind (R35). -/
theorem hsel_of_running {s : State} {e : Event} (hm : s.mode = .handler) (he : s.cur = some e) :
    s.hsel = BitVec.twoPow 10 e.kind.code.toNat := by
  rw [State.hsel, dispEv_of_handler hm, State.curWord, he]
  simp [BitVec.twoPow]

/-- HSEL while no handler runs (R35). -/
theorem hsel_of_not_running {s : State} (h : s.mode ≠ .handler ∨ s.cur = none) : s.hsel = 0 := by
  have hev : s.dispEv = none := by
    by_cases hm : s.mode = .handler
    · rw [dispEv_of_handler hm, State.curWord, h.resolve_left (not_not_intro hm), Option.map_none]
    · exact dispEv_of_ne_handler hm
  rw [State.hsel, hev]

/-- Line `k` of HSEL is 1 exactly while the handler of an event of kind `k` runs (R35). -/
theorem hsel_line_iff {s : State} {k : Fin 10} :
    s.hsel.getLsbD k = true ↔ s.mode = .handler ∧ ∃ e, s.cur = some e ∧ e.kind.code.toNat = k.val := by
  by_cases hm : s.mode = .handler
  · cases he : s.cur with
    | some e =>
      simp [hsel_of_running hm he, hm, eq_comm]
    | none => simp [hsel_of_not_running (.inr he)]
  · simp [hsel_of_not_running (.inl hm), hm]

/-- Settles O44: the dispatch port, the range of the kinds, and HSEL line by line. -/
theorem handlerSelectIsOneHot : Obligations.HandlerSelectIsOneHot := by
  intro s
  refine ⟨dispValid_iff, fun e hm he => ?_, fun e => ?_, fun k => ?_⟩
  · rw [dispEv_of_handler hm, State.curWord, he, Option.map_some]
  · rw [word_kindBits]
    exact kindCode_lt e.kind
  · simp only [word_kindBits]
    exact hsel_line_iff

end Sys2Proof.OutputPorts
end

section
/-! What a step can change, register by register: the mode (spec/10_state.md R26), the counter (R21) and the slots (R23).
Each follows from what a command, an ARBITRATE and a step can do. -/

namespace Sys2Proof.StepWriters

open Sys2Proof.Machine Sys2Proof.Laws Sys2Proof.DerivedFlags

/-! The mode. -/

/-- A command moves the mode from IDLE to CHECK by an ADVANCE, from HANDLER to CHECK by a DONE, and to FAULT with a
code (R26). -/
theorem mode_of_effect {s t : State} {i : Instr} (he : Effect s i t) (hne : t.mode ≠ s.mode) :
    (s.mode = .idle ∧ t.mode = .check ∧ ∃ n, i = .advance n) ∨
      (s.mode = .handler ∧ t.mode = .check ∧ ∃ arg, i = .done arg) ∨
      (s.mode ≠ .fault ∧ t.mode = .fault ∧ t.fcode ≠ .none) := by
  cases he with
  | passStarted n hi => exact .inl ⟨hi, rfl, n, rfl⟩
  | returned arg hh => exact .inr (.inl ⟨hh, rfl, arg, rfl⟩)
  | illegalEvent | dueOverflow | cycleOverflow | aborted | protocol => exact .inr (.inr ⟨hne.symm, rfl, nofun⟩)
  | held | inserted | removed | insertedNow => exact absurd rfl hne
  | clockMoved _ hh => exact absurd hh.symm hne

/-- An ARBITRATE moves the mode to HANDLER with a due head, to IDLE with a head that is not due, and to FAULT with a code
(R26). -/
theorem mode_of_arbitrateEffect {s t : State} (he : ArbitrateEffect s t) :
    (t.mode = .handler ∧ s.headIsDue = true ∧ t.cur.isSome = true) ∨
      (t.mode = .idle ∧ s.headValid = true ∧ s.headIsDue = false) ∨ (t.mode = .fault ∧ t.fcode ≠ .none) := by
  cases he with
  | dispatched i d hslot _ hdue =>
    exact .inl ⟨rfl, headIsDue_iff_due.mpr ⟨i, due_iff.mpr ⟨d, hslot, hdue⟩⟩, rfl⟩
  | ended hne hfuture =>
    refine .inr (.inl ⟨rfl, by simp [State.headValid, hne], ?_⟩)
    rw [← Bool.not_eq_true, headIsDue_iff_due]
    rintro ⟨j, hj⟩
    obtain ⟨d, hslot, hdue⟩ := due_iff.mp hj
    exact BitVec.not_lt.mpr hdue (hfuture j d hslot)
  | empty => exact .inr (.inr ⟨rfl, nofun⟩)

/-- Settles O29: one case for each effect of a step. -/
theorem modeTransitionsAreListed : Obligations.ModeTransitionsAreListed := by
  intro s t hstep hnr hne
  cases effect_of_step hstep with
  | reset rest hp => exact absurd hp (hnr rest)
  | arbitrated p hp hm =>
    rcases mode_of_arbitrateEffect (arbitrate_effect (t := s.arbitrate) rfl) with ⟨ht, hdue⟩ | ⟨ht, hhead⟩ | ⟨ht, hcode⟩
    · exact .inr (.inl ⟨hm, ht, hdue⟩)
    · exact .inr (.inr (.inl ⟨hm, ht, hhead⟩))
    · exact .inr (.inr (.inr (.inr ⟨by simp [hm], ht, hcode⟩)))
  | waited | discarded => exact absurd rfl hne
  | command r rest i u hp _ hd he =>
    rcases mode_of_effect he hne with ⟨hi, hu, n, rfl⟩ | ⟨hh, hu, arg, rfl⟩ | hfault
    · exact .inl ⟨hi, hu, r, rest, n, hp, hd⟩
    · exact .inr (.inr (.inr (.inl ⟨hh, hu, r, rest, arg, hp, hd⟩)))
    · exact .inr (.inr (.inr (.inr hfault)))
  | illegal => exact .inr (.inr (.inr (.inr ⟨hne.symm, rfl, nofun⟩)))

/-! The counter. -/

/-- A command leaves the counter, or is an ADVANCE whose sum fits (R21). -/
theorem cycle_of_effect {s t : State} {i : Instr} (he : Effect s i t) :
    t.cycle = s.cycle ∨ ∃ n, s.Accepts ∧ i = .advance n ∧ t.cycle.toNat = s.cycle.toNat + n.toNat := by
  cases he with
  | passStarted n hm hfit => exact .inr ⟨n, .inl hm, rfl, BitVec.toNat_add_of_lt hfit⟩
  | clockMoved n hm hfit => exact .inr ⟨n, .inr hm, rfl, BitVec.toNat_add_of_lt hfit⟩
  | _ => exact .inl rfl

/-- An ARBITRATE leaves the counter (R21). -/
theorem arbitrate_cycle (s : State) : s.arbitrate.cycle = s.cycle := by
  generalize h : s.arbitrate = t
  cases arbitrate_effect h <;> rfl

/-- Settles O30: only a command that is an ADVANCE writes the counter. -/
theorem onlyAdvanceMovesCounter : Obligations.OnlyAdvanceMovesCounter := by
  intro s t hstep hnr
  cases effect_of_step hstep with
  | reset rest hp => exact absurd hp (hnr rest)
  | arbitrated => exact .inl (arbitrate_cycle s)
  | waited | discarded | illegal => exact .inl rfl
  | command r rest i u hp _ hd he =>
    rcases cycle_of_effect he with hsame | ⟨n, ha, rfl, hsum⟩
    · exact .inl hsame
    · exact .inr ⟨r, rest, n, ha, hp, hd, hsum⟩

/-! The slots. -/

/-- A write of one slot changes no other. -/
theorem eq_of_slot_setSlot_ne {s : State} {i j : SlotIndex} {x : Option U64} (h : (s.setSlot i x).slot j ≠ s.slot j) :
    j = i := by
  by_contra hji
  exact h (slot_setSlot_of_ne s x hji)

/-- A command that changes slot `i` is a SCHEDULE, a RUN_NOW or a CANCEL of its event, and writes what R23 says. -/
theorem slot_of_effect {s t : State} {c : Instr} {i : SlotIndex} (he : Effect s c t) (hne : t.slot i ≠ s.slot i) :
    s.Accepts ∧
      ((∃ d due, c = .schedule (Event.ofOrd i).word d ∧ t.slot i = some due ∧
          due.toNat = s.cycle.toNat + d.toNat) ∨
        (∃ arg, c = .runNow (Event.ofOrd i).word arg ∧ t.slot i = some s.cycle) ∨
        (∃ arg, c = .cancel (Event.ofOrd i).word arg ∧ t.slot i = none)) := by
  cases he with
  | inserted e d ha hfit =>
    obtain rfl := eq_of_slot_setSlot_ne hne
    exact ⟨ha, .inl ⟨d, _, by rw [ofOrd_ord], slot_setSlot_self s _ _, BitVec.toNat_add_of_lt hfit⟩⟩
  | insertedNow e arg ha =>
    obtain rfl := eq_of_slot_setSlot_ne hne
    exact ⟨ha, .inr (.inl ⟨arg, by rw [ofOrd_ord], slot_setSlot_self s _ _⟩)⟩
  | removed e arg ha =>
    obtain rfl := eq_of_slot_setSlot_ne hne
    exact ⟨ha, .inr (.inr ⟨arg, by rw [ofOrd_ord], slot_setSlot_self s _ _⟩)⟩
  | _ => exact absurd rfl hne

/-- An ARBITRATE that changes slot `i` dispatches its event, which was due (R23, R128). -/
theorem slot_of_arbitrateEffect {s t : State} {i : SlotIndex} (he : ArbitrateEffect s t) (hne : t.slot i ≠ s.slot i) :
    t.mode = .handler ∧ s.due i = true ∧ t.cur = some (Event.ofOrd i) ∧ t.slot i = none := by
  cases he with
  | dispatched h d hslot _ hdue =>
    obtain rfl := eq_of_slot_setSlot_ne hne
    exact ⟨rfl, due_iff.mpr ⟨d, hslot, hdue⟩, rfl, slot_setSlot_self s i none⟩
  | empty | ended => exact absurd rfl hne

/-- Settles O31: the writers are the three queue commands and the arbiter's dispatch. -/
theorem storeWritersAreListed : Obligations.StoreWritersAreListed := by
  intro s t i hstep hnr hne
  cases effect_of_step hstep with
  | reset rest hp => exact absurd hp (hnr rest)
  | arbitrated _ _ hm =>
    exact .inr (.inr (.inr ⟨hm, slot_of_arbitrateEffect (t := s.arbitrate) (arbitrate_effect rfl) hne⟩))
  | waited | discarded | illegal => exact absurd rfl hne
  | command r rest c u hp _ hd he =>
    obtain ⟨ha, ⟨d, due, rfl, hw⟩ | ⟨arg, rfl, hw⟩ | ⟨arg, rfl, hw⟩⟩ := slot_of_effect he hne
    · exact .inl ⟨r, rest, d, due, ha, hp, hd, hw⟩
    · exact .inr (.inl ⟨r, rest, arg, ha, hp, hd, hw⟩)
    · exact .inr (.inr (.inl ⟨r, rest, arg, ha, hp, hd, hw⟩))

end Sys2Proof.StepWriters
end

section
/-! CANCEL issued twice (spec/20_memory.md R64): what one CANCEL leaves behind, a second one leaves as it is. -/

namespace Sys2Proof.CancelTwice

open Sys2Proof.Machine Sys2Proof.Laws

/-- In IDLE and HANDLER a CANCEL of an event removes its entry, whatever its operand (R102). -/
theorem exec_cancel_word {s : State} (ha : s.Accepts) (e : Event) (arg : U64) :
    exec (.cancel e.word arg) s = .next (s.qRemove e) := by
  simp only [exec, execCancel, accepting_of_accepts ha, withEvent_word]

/-- Removing an entry twice is removing it once (R64). -/
theorem qRemove_qRemove (s : State) (e : Event) : (s.qRemove e).qRemove e = s.qRemove e :=
  setSlot_setSlot s e.ord none none

/-- Settles O20: a CANCEL that is not held removes its event's entry, where removing is idempotent, or enters FAULT,
where the second CANCEL is held. -/
theorem cancelTwiceIsCancelOnce : Obligations.CancelTwiceIsCancelOnce := by
  intro s t ev arg arg' h
  cases effect_of_exec h with
  | held _ hm => exact exec_of_held hm _
  | illegalEvent => exact exec_of_held (.inr rfl) _
  | removed e _ ha => rw [exec_cancel_word (s := s.qRemove e) (accepts_setSlot ha e.ord none), qRemove_qRemove]
  | protocol _ _ hends => cases hends

end Sys2Proof.CancelTwice
end

section
/-! The byte form of command words, operands and status registers (spec/20_memory.md R52): where each byte stands, and
reading a serialised command back. -/

namespace Sys2Proof.ByteForm

open Sys2Proof.Machine Sys2Proof.Laws

/-! Where each byte stands. -/

/-- Byte `j` of a serialised number is its bits `8j+7` to `8j`. -/
theorem littleEndian_getElem? {k j : Nat} (n : Nat) (h : j < k) :
    (littleEndian k n)[j]? = some (BitVec.ofNat 8 (n >>> (8 * j))) := by
  induction k generalizing n j with
  | zero => exact absurd h (Nat.not_lt_zero j)
  | succ k ih =>
    cases j with
    | zero => rfl
    | succ j =>
      have hshift : (n / 256) >>> (8 * j) = n >>> (8 * (j + 1)) := by
        rw [Nat.mul_succ, Nat.add_comm, Nat.shiftRight_add, Nat.shiftRight_eq_div_pow n 8]
      rw [littleEndian, List.getElem?_cons_succ, ih _ (Nat.lt_of_succ_lt_succ h), hshift]

/-- Byte `j` of a serialised word. -/
theorem littleEndian_word_getElem? {w k j : Nat} (x : BitVec w) (h : j < k) :
    (littleEndian k x.toNat)[j]? = some (x.extractLsb' (8 * j) 8) :=
  littleEndian_getElem? x.toNat h

/-- The command word's bytes come first (assumption 8). -/
theorem bytes_getElem?_cmd (r : Request) {j : Nat} (h : j < 4) :
    r.bytes[j]? = some (r.cmd.extractLsb' (8 * j) 8) := by
  rw [Request.bytes, List.getElem?_append_left (by rwa [littleEndian_length]), littleEndian_word_getElem? r.cmd h]

/-- The operand's bytes follow from byte 4 on (assumption 8). -/
theorem bytes_getElem?_arg (r : Request) {j : Nat} (h : j < 8) :
    r.bytes[4 + j]? = some (r.arg.extractLsb' (8 * j) 8) := by
  rw [Request.bytes, List.getElem?_append_right (by simp), littleEndian_length, Nat.add_sub_cancel_left,
    littleEndian_word_getElem? r.arg h]

/-- Settles O53: a command's bytes are the little-endian bytes of its two words, and a status register's those of its
value. -/
theorem serialisedWordsAreLittleEndian : Obligations.SerialisedWordsAreLittleEndian :=
  ⟨fun r _ => ⟨bytes_getElem?_cmd r, bytes_getElem?_arg r⟩,
    fun s reg _ _ => littleEndian_word_getElem? (s.readStatus reg)⟩

/-! Reading a serialised command back. -/

/-- Decoding an encoded command gives it back (R77, R79). -/
theorem decode_encode (i : Instr) : decode (encode i) = .ok i := by
  rw [encode, cmdWord_eq, decode_cmdOfFields]
  cases i <;> rfl

/-- A serialised request takes twelve bytes (assumption 8). -/
@[simp] theorem bytes_length (r : Request) : r.bytes.length = 12 := by
  simp [Request.bytes]

/-- The bytes of a word that they hold whole spell it. -/
theorem ofLittleEndian_word {w : Nat} (k : Nat) (hw : 2 ^ w = 256 ^ k) (x : BitVec w) :
    BitVec.ofNat w (ofLittleEndian (littleEndian k x.toNat)) = x := by
  rw [ofLittleEndian_littleEndian k x.toNat (hw ▸ x.isLt), BitVec.ofNat_toNat, BitVec.setWidth_eq]

/-- A request is read back from the front of a stream that begins with its bytes. -/
theorem ofBytes_bytes_append (r : Request) (rest : List Byte) : Request.ofBytes (r.bytes ++ rest) = r := by
  have hcmd : (r.bytes ++ rest).take 4 = littleEndian 4 r.cmd.toNat := by
    rw [Request.bytes, List.append_assoc, List.take_left' (littleEndian_length 4 _)]
  have harg : ((r.bytes ++ rest).drop 4).take 8 = littleEndian 8 r.arg.toNat := by
    rw [Request.bytes, List.append_assoc, List.drop_left' (littleEndian_length 4 _),
      List.take_left' (littleEndian_length 8 _)]
  rw [Request.ofBytes, hcmd, harg, ofLittleEndian_word 4 (by decide), ofLittleEndian_word 8 (by decide)]

/-- Decoding a stream that begins with a request's bytes decodes that request and leaves the other bytes. -/
theorem decodeBytes_bytes_append {r : Request} {i : Instr} (h : decode r = .ok i) (rest : List Byte) :
    decodeBytes (r.bytes ++ rest) = .ok (i, rest) := by
  have hlong : 12 ≤ (r.bytes ++ rest).length := by simp
  simp only [decodeBytes, if_pos hlong, ofBytes_bytes_append, h, List.drop_left' (bytes_length r)]

/-- Settles O39: the twelve bytes give back the encoded request, which decodes to the command. -/
theorem serialisedCommandRoundTrip : Obligations.SerialisedCommandRoundTrip :=
  fun i => decodeBytes_bytes_append (decode_encode i)

end Sys2Proof.ByteForm
end

section
/-! The encoding of commands (spec/30_encoding.md R77 to R86): a request decodes to a command exactly when it is that
command's encoding; from this follow the opcode table's rows, the written-out words and what the assembler emits. -/

namespace Sys2Proof.CommandEncoding

open Sys2Proof.Machine Sys2Proof.Laws Sys2Proof.ByteForm

/-! Decoding and encoding. -/

/-- A command without an event operand is answered exactly when the EV field is zero (R79, R81 step 3). -/
theorem ifNoEvent_eq_ok {ev : EventWord} {i j : Instr} : ifNoEvent ev i = .ok j ↔ ev = 0 ∧ i = j := by
  by_cases h : ev = 0
  · rw [ifNoEvent, if_pos h, Except.ok.injEq, and_iff_right h]
  · rw [ifNoEvent, if_neg h]
    exact ⟨nofun, fun hok => absurd hok.1 h⟩

/-- The decoder drops no bit: what it answers encodes to the request it read (R77, R82). -/
theorem encode_of_decode {r : Request} {i : Instr} (h : decode r = .ok i) : encode i = r := by
  obtain ⟨cmd, arg⟩ := r
  obtain ⟨op, rsv, ev, rfl⟩ : ∃ op rsv ev, cmdOfFields op rsv ev = cmd := ⟨_, _, _, cmd_of_its_fields cmd⟩
  rw [decode_cmdOfFields] at h
  split at h
  case isFalse => cases h
  case isTrue hrsv =>
    subst hrsv
    have hop (n : BitVec 4) (hn : op.toNat = n.toNat) : op = n := BitVec.eq_of_toNat_eq hn
    split at h
    case h_1 hn => cases h; rw [hop 1 hn]; rfl
    case h_2 hn => cases h; rw [hop 2 hn]; rfl
    case h_3 hn => cases h; rw [hop 3 hn]; rfl
    case h_4 hn => obtain ⟨rfl, rfl⟩ := ifNoEvent_eq_ok.mp h; rw [hop 4 hn]; rfl
    case h_5 hn => obtain ⟨rfl, rfl⟩ := ifNoEvent_eq_ok.mp h; rw [hop 5 hn]; rfl
    case h_6 hn => obtain ⟨rfl, rfl⟩ := ifNoEvent_eq_ok.mp h; rw [hop 6 hn]; rfl
    case h_7 => cases h

/-- The decodable requests are the encodings of commands, each of its own command (R77, R79, R82). -/
theorem decode_eq_ok_iff {r : Request} {i : Instr} : decode r = .ok i ↔ encode i = r :=
  ⟨encode_of_decode, fun h => h ▸ decode_encode i⟩

/-- Settles O37: the fields of an encoded command are read back, command by command. -/
theorem decodeEncodeRoundTrip : Obligations.DecodeEncodeRoundTrip := decode_encode

/-- Settles O38: in every arm of the decoder the three fields it read are those of the command it answers. -/
theorem encodeDecodeRoundTrip : Obligations.EncodeDecodeRoundTrip := fun _ _ => encode_of_decode

/-- Settles O5: the six command words are encodings, and the four others are refused by the field that is wrong. -/
theorem knownWordsDecode : Obligations.KnownWordsDecode :=
  ⟨decode_encode (.schedule 0x2000 40), decode_encode (.cancel 0x3000 0xDEAD), decode_encode (.runNow 0x3000 0),
    decode_encode (.advance 14), decode_encode (.done 0), decode_encode (.abort 3), rfl, rfl, rfl, rfl⟩

/-! The opcode table. -/

/-- A word that selects a row is the command word of a command with that row's mnemonic (R79). -/
theorem exists_encode_of_selectedBy {row : OpcodeRow} (hrow : row ∈ opcodeTable) {r : Request}
    (h : row.selectedBy r.cmd = true) : ∃ i : Instr, encode i = r ∧ i.mnemonic = row.mnemonic := by
  obtain ⟨cmd, arg⟩ := r
  obtain ⟨op, rsv, ev, rfl⟩ : ∃ op rsv ev, cmdOfFields op rsv ev = cmd := ⟨_, _, _, cmd_of_its_fields cmd⟩
  have hhigh {o : BitVec 4} (hw : (cmdOfFields op rsv ev &&& 0xFFFF0000 == cmdOfFields o 0 0) = true) :
      op = o ∧ rsv = 0 := (selects_high op o rsv ev).mp (eq_of_beq hw)
  have hall {o : BitVec 4} (hw : (cmdOfFields op rsv ev &&& 0xFFFFFFFF == cmdOfFields o 0 0) = true) :
      op = o ∧ rsv = 0 ∧ ev = 0 := (selects_all op o rsv ev).mp (eq_of_beq hw)
  simp only [OneRow.table_by_fields, List.mem_cons, List.not_mem_nil, or_false] at hrow
  obtain rfl | rfl | rfl | rfl | rfl | rfl := hrow
  · obtain ⟨rfl, rfl⟩ := hhigh h
    exact ⟨.schedule ev arg, rfl, rfl⟩
  · obtain ⟨rfl, rfl⟩ := hhigh h
    exact ⟨.cancel ev arg, rfl, rfl⟩
  · obtain ⟨rfl, rfl⟩ := hhigh h
    exact ⟨.runNow ev arg, rfl, rfl⟩
  · obtain ⟨rfl, rfl, rfl⟩ := hall h
    exact ⟨.advance arg, rfl, rfl⟩
  · obtain ⟨rfl, rfl, rfl⟩ := hall h
    exact ⟨.done arg, rfl, rfl⟩
  · obtain ⟨rfl, rfl, rfl⟩ := hall h
    exact ⟨.abort arg, rfl, rfl⟩

/-- Every command's word selects its own row and no other (R79). -/
theorem oneRow_statement (i : Instr) : OneRow.Statement i := by
  cases i with
  | schedule ev delay => exact OneRow.schedule ev delay
  | cancel ev arg => exact OneRow.cancel ev arg
  | runNow ev arg => exact OneRow.runNow ev arg
  | advance n => exact OneRow.advance n
  | done arg => exact OneRow.done arg
  | abort info => exact OneRow.abort info

/-- The row of a command is in the table and its word selects it (R79). -/
theorem exists_row_of_instr (i : Instr) :
    ∃ row ∈ opcodeTable, row.selectedBy i.cmdWord = true ∧ row.mnemonic = i.mnemonic := by
  have hmem : i.mnemonic ∈ (opcodeTable.filter fun row => row.selectedBy i.cmdWord).map OpcodeRow.mnemonic := by
    rw [oneRow_statement i]
    exact List.mem_singleton_self _
  obtain ⟨row, hrow, hname⟩ := List.mem_map.mp hmem
  obtain ⟨htable, hsel⟩ := List.mem_filter.mp hrow
  exact ⟨row, htable, hsel, hname⟩

/-- Settles O40: words that select a row are encodings of its command, and every encoding selects its row. -/
theorem tableRowsDecode : Obligations.TableRowsDecode := by
  refine fun r => ⟨fun row hrow hsel => ?_, fun i hd => ?_⟩
  · simpa only [decode_eq_ok_iff] using exists_encode_of_selectedBy hrow hsel
  · rw [← encode_of_decode hd]
    exact exists_row_of_instr i

/-! The assembler. -/

/-- A command's word is its OP above zeros with its event word set below (R85). -/
theorem encode_eq_or {i : Instr} {op : BitVec 4} {base : CmdWord} (hop : i.opCode = op)
    (hbase : cmdOfFields op 0 0 = base) : encode i = ⟨base ||| i.evOperand.setWidth 32, i.argOperand⟩ := by
  rw [← hbase, ← hop, or_setWidth]
  rfl

/-- A command without an event word has its OP above zeros as its word (R85). -/
theorem encode_eq_of_no_event {i : Instr} {op : BitVec 4} {base : CmdWord} (hop : i.opCode = op)
    (hev : i.evOperand = 0) (hbase : cmdOfFields op 0 0 = base) : encode i = ⟨base, i.argOperand⟩ := by
  rw [encode, cmdWord_eq, hop, hev, hbase]

/-- Settles O41: every statement expands to commands, whose words are OP above the event word. -/
theorem assemblerEmitsEncodings : Obligations.AssemblerEmitsEncodings := by
  intro e x
  have hschedule : encode (.schedule e.word x) = ⟨0x10000000 ||| e.word.setWidth 32, x⟩ :=
    encode_eq_or (op := 1) rfl rfl
  have hcancel : encode (.cancel e.word 0) = ⟨0x20000000 ||| e.word.setWidth 32, 0⟩ :=
    encode_eq_or (op := 2) rfl rfl
  have hrunNow : encode (.runNow e.word 0) = ⟨0x30000000 ||| e.word.setWidth 32, 0⟩ :=
    encode_eq_or (op := 3) rfl rfl
  have hadvance : encode (.advance x) = ⟨0x40000000, x⟩ :=
    encode_eq_of_no_event (op := 4) rfl rfl rfl
  have hdone : encode (.done 0) = ⟨0x50000000, 0⟩ :=
    encode_eq_of_no_event (op := 5) rfl rfl rfl
  have habort : encode (.abort x) = ⟨0x60000000, x⟩ :=
    encode_eq_of_no_event (op := 6) rfl rfl rfl
  exact ⟨congrArg ([·]) hschedule, congrArg ([·]) hcancel, congrArg ([·]) hrunNow, congrArg ([·]) hadvance,
    congrArg ([·]) hdone, congrArg ([·]) habort, rfl, rfl⟩

end Sys2Proof.CommandEncoding
end

section
/-! Event words and ordinals (spec/30_encoding.md R73 to R76): the legal words are the words of the slots, in the slots'
order, so a due cycle above an event word is a key that orders entries as the comparator does. -/

namespace Sys2Proof.EventOrder

open Sys2Proof.Laws

/-- Settles O35: a legal word is some event's word, and every event has a slot. -/
theorem legalWordsAreTheTable : Obligations.LegalWordsAreTheTable := by
  refine fun w => ⟨fun h => ?_, fun ⟨i, hi⟩ => ?_⟩
  · obtain ⟨e, rfl⟩ := exists_event_of_legal h
    exact ⟨e.ord, congrArg Event.word (ofOrd_ord e)⟩
  · exact hi ▸ word_legal (Event.ofOrd i)

/-- Each slot's word is below the next slot's, so words ascend along the slots (R74, R76). -/
theorem strictMono_word_ofOrd : StrictMono fun i : SlotIndex => (Event.ofOrd i).word.toNat :=
  Fin.strictMono_iff_lt_succ.mpr (by decide)

/-- Ordinals are ordered as the event words are (R76). -/
theorem ord_lt_ord_iff {e f : Event} : e.ord < f.ord ↔ e.word < f.word := by
  simpa [BitVec.lt_def] using (strictMono_word_ofOrd.lt_iff_lt (a := e.ord) (b := f.ord)).symm

/-- The number that a high and a low part spell. -/
theorem toNat_append_eq_mul_add {m n : Nat} (x : BitVec m) (y : BitVec n) :
    (x ++ y).toNat = 2 ^ n * x.toNat + y.toNat := by
  rw [BitVec.toNat_append, ← Nat.shiftLeft_add_eq_or_of_lt y.isLt, Nat.shiftLeft_eq, Nat.mul_comm]

/-- Words put together high part first are ordered by the high parts, and by the low parts where these agree. -/
theorem append_lt_append_iff {m n : Nat} {x x' : BitVec m} {y y' : BitVec n} :
    x ++ y < x' ++ y' ↔ x < x' ∨ (x = x' ∧ y < y') := by
  simp only [BitVec.lt_def, BitVec.toNat_eq, toNat_append_eq_mul_add]
  have hy := y.isLt
  have hy' := y'.isLt
  have hhigh {a b : Nat} (h : a < b) : 2 ^ n * a + 2 ^ n ≤ 2 ^ n * b := Nat.mul_le_mul_left (2 ^ n) h
  obtain h | h | h := Nat.lt_trichotomy x.toNat x'.toNat
  · have := hhigh h
    omega
  · rw [h]
    omega
  · have := hhigh h
    omega

/-- Settles O36: words ascend along the slots, and a key compares its due cycle before its event word. -/
theorem ordinalOrderIsWordOrder : Obligations.OrdinalOrderIsWordOrder := by
  refine fun e f => ⟨ord_lt_ord_iff, fun d d' => ?_⟩
  rw [append_lt_append_iff, ord_lt_ord_iff]

end Sys2Proof.EventOrder
end

section
/-! Every step answers a next state (spec/30_encoding.md R81). -/

namespace Sys2Proof.StepTotal

open Sys2Proof.Machine Sys2Proof.Laws

/-- Settles O8: every step has one of the effects that a step can have, and each leaves a next state. -/
theorem stepAlwaysAnswersNext : Obligations.StepAlwaysAnswersNext :=
  fun s => (step_effect s).imp fun _ h => h.1

end Sys2Proof.StepTotal
end

section
/-! The queue commands SCHEDULE, CANCEL and RUN_NOW (spec/40_queue_commands.md R100 to R108): what an insertion and a
removal leave of the store and its flags, what each command does to a legal event word, and how edits of one event's
entry compose. -/

namespace Sys2Proof.QueueCommands

open Sys2Proof.Machine Sys2Proof.Laws Sys2Proof.DerivedFlags Sys2Proof.CommandEncoding Sys2Proof.ByteForm
open Sys2Proof.CancelTwice

/-! The store: frame, flags and composition. -/

/-- Writing a slot changes no other slot and no register (R100). -/
theorem onlySlotChanges_setSlot (s : State) (i : SlotIndex) (x : Option U64) :
    State.OnlySlotChanges i s (s.setSlot i x) :=
  ⟨fun _ hj => slot_setSlot_of_ne s x hj, rfl, rfl, rfl, rfl, rfl, rfl, rfl, rfl⟩

/-- An insertion leaves the event pending at its due cycle (R11). -/
theorem slot_qInsert_self (s : State) (e : Event) (d : U64) : (s.qInsert e d).slot e.ord = some d :=
  slot_setSlot_self s e.ord (some d)

/-- A removal leaves the event not pending (R11). -/
theorem slot_qRemove_self (s : State) (e : Event) : (s.qRemove e).slot e.ord = none :=
  slot_setSlot_self s e.ord none

/-- After an insertion EMPTY is 0 (R30). -/
theorem emptyFlag_qInsert (s : State) (e : Event) (d : U64) : (s.qInsert e d).emptyFlag = false := by
  rw [State.emptyFlag, ← Bool.not_eq_true, qEmpty_iff]
  intro hempty
  have hpending := slot_qInsert_self s e d
  rw [hempty e.ord] at hpending
  cases hpending

/-- After the insertion of an entry that is due HEAD_IS_DUE is 1 (R30, R127). -/
theorem headIsDue_qInsert {s : State} {d : U64} (h : d ≤ s.cycle) (e : Event) : (s.qInsert e d).headIsDue = true :=
  headIsDue_iff_due.mpr ⟨e.ord, due_iff.mpr ⟨d, slot_qInsert_self s e d, h⟩⟩

/-- An insertion adds 1 to COUNT unless it displaces an entry (R30, R105). -/
theorem count_qInsert (s : State) (e : Event) (d : U64) :
    (s.qInsert e d).count = s.count + (if (s.slot e.ord).isSome then 0 else 1) := by
  have h : (s.qInsert e d).count + (if (s.slot e.ord).isSome then 1 else 0) = s.count + 1 :=
    count_setSlot s e.ord (some d)
  by_cases hp : (s.slot e.ord).isSome = true
  · rw [if_pos hp] at h ⊢
    omega
  · rw [if_neg hp] at h ⊢
    omega

/-- A removal takes 1 from COUNT if there was an entry (R30). -/
theorem count_qRemove (s : State) (e : Event) :
    (s.qRemove e).count + (if (s.slot e.ord).isSome then 1 else 0) = s.count :=
  count_setSlot s e.ord none

/-- Removing an event that is not pending changes nothing (R102). -/
theorem qRemove_of_not_pending {s : State} {e : Event} (h : s.slot e.ord = none) : s.qRemove e = s := by
  rw [State.qRemove, ← h, setSlot_same]

/-- An insertion overwrites what an earlier removal left (R105). -/
theorem qInsert_qRemove (s : State) (e : Event) (d : U64) : (s.qRemove e).qInsert e d = s.qInsert e d :=
  setSlot_setSlot s e.ord none (some d)

/-- A removal undoes an earlier insertion of the same event (R108). -/
theorem qRemove_qInsert (s : State) (e : Event) (d : U64) : (s.qInsert e d).qRemove e = s.qRemove e :=
  setSlot_setSlot s e.ord (some d) none

/-! The commands. -/

/-- A word with a command's OP above zeros and its event word below decodes to that command (R77, R85). -/
theorem decode_or {i : Instr} {op : BitVec 4} {base : CmdWord} (hop : i.opCode = op)
    (hbase : cmdOfFields op 0 0 = base) : decode ⟨base ||| i.evOperand.setWidth 32, i.argOperand⟩ = .ok i :=
  decode_eq_ok_iff.mpr (encode_eq_or hop hbase)

/-- In every mode a SCHEDULE whose sum fits is the gated insertion of its event at that sum (R101). -/
theorem exec_schedule_gated {s : State} (e : Event) {d : U64} (hfit : s.cycle.toNat + d.toNat < 2 ^ 64) :
    exec (.schedule e.word d) s = .next (s.accepting (s.qInsert e (s.cycle + d))) := by
  simp only [exec, execSchedule, withEvent_word, State.withSum, addExact_of_fits hfit]

/-- In IDLE and HANDLER a SCHEDULE whose sum fits inserts its event with that due cycle (R101). -/
theorem exec_schedule_of_fits {s : State} (ha : s.Accepts) (e : Event) {d : U64}
    (hfit : s.cycle.toNat + d.toNat < 2 ^ 64) :
    exec (.schedule e.word d) s = .next (s.qInsert e (s.cycle + d)) := by
  rw [exec_schedule_gated e hfit, accepting_of_accepts ha]

/-- In IDLE and HANDLER a SCHEDULE whose sum does not fit raises DUE_OVERFLOW (R101, R191). -/
theorem exec_schedule_of_overflows {s : State} (ha : s.Accepts) (e : Event) {d : U64}
    (hover : 2 ^ 64 ≤ s.cycle.toNat + d.toNat) :
    exec (.schedule e.word d) s = .next (s.raise .dueOverflow (some e.word) d) := by
  simp only [exec, execSchedule, accepting_of_accepts ha, withEvent_word, State.withSum, addExact_of_overflows hover]

/-- In every mode a RUN_NOW is the gated insertion of its event at the counter's value (R103). -/
theorem exec_runNow_gated (s : State) (e : Event) (arg : U64) :
    exec (.runNow e.word arg) s = .next (s.accepting (s.qInsert e s.cycle)) := by
  simp only [exec, execRunNow, withEvent_word]

/-- In every mode a SCHEDULE with delay 0 is that too, for its sum always fits (R104). -/
theorem exec_schedule_zero (s : State) (e : Event) :
    exec (.schedule e.word 0) s = .next (s.accepting (s.qInsert e s.cycle)) := by
  have hfit : s.cycle.toNat + (0 : U64).toNat < 2 ^ 64 := s.cycle.isLt
  have hsum : s.cycle + 0 = s.cycle := BitVec.add_zero s.cycle
  rw [exec_schedule_gated e hfit, hsum]

/-- Whether a gated insertion applies or is held, the mode stays (R106). -/
theorem accepting_qInsert_mode (s : State) (e : Event) (d : U64) : (s.accepting (s.qInsert e d)).mode = s.mode := by
  rcases accepting_cases s (s.qInsert e d) with ⟨-, h⟩ | ⟨-, h⟩
  · rw [h, qInsert_mode]
  · rw [h]

/-! The obligations. -/

/-- Settles O10: the sum fits and is inserted, or it does not and DUE_OVERFLOW is raised. -/
theorem scheduleInsertsDueCycle : Obligations.ScheduleInsertsDueCycle := by
  refine fun s e d ha => ⟨decode_or (i := .schedule e.word d) (op := 1) rfl rfl, fun hfit => ?_, fun hover => ?_⟩
  · exact ⟨_, s.cycle + d, exec_schedule_of_fits ha e hfit, BitVec.toNat_add_of_lt hfit, slot_qInsert_self s e _,
      onlySlotChanges_setSlot s e.ord _, emptyFlag_qInsert s e _, count_qInsert s e _⟩
  · exact ⟨_, exec_schedule_of_overflows ha e hover, raise_faultedWith s .dueOverflow (some e.word) d⟩

/-- Settles O11: CANCEL is the removal of its event's entry. -/
theorem cancelRemovesEntry : Obligations.CancelRemovesEntry :=
  fun s e arg ha => ⟨decode_or (i := .cancel e.word arg) (op := 2) rfl rfl, s.qRemove e, exec_cancel_word ha e arg,
    slot_qRemove_self s e, onlySlotChanges_setSlot s e.ord none, qRemove_of_not_pending, count_qRemove s e⟩

/-- Settles O12: RUN_NOW is an insertion at the counter's value, which is due at once. -/
theorem runNowInsertsAtCycle : Obligations.RunNowInsertsAtCycle := by
  refine fun s e arg ha => ⟨decode_or (i := .runNow e.word arg) (op := 3) rfl rfl, s.qInsert e s.cycle, ?_,
    slot_qInsert_self s e _, onlySlotChanges_setSlot s e.ord _, emptyFlag_qInsert s e _,
    headIsDue_qInsert (BitVec.le_refl _) e, count_qInsert s e _⟩
  rw [exec_runNow_gated, accepting_of_accepts ha]

/-- Settles O13: both commands are the same gated insertion. -/
theorem runNowIsScheduleZero : Obligations.RunNowIsScheduleZero :=
  fun s e arg => ⟨(exec_runNow_gated s e arg).trans (exec_schedule_zero s e).symm, _, exec_schedule_zero s e,
    accepting_qInsert_mode s e s.cycle⟩

/-- Settles O21: CANCEL leaves the counter, so both SCHEDULEs insert the same due cycle, and the insertion overwrites
what the CANCEL wrote. -/
theorem scheduleDisplacesPending : Obligations.ScheduleDisplacesPending := by
  refine fun s e d arg ha hfit => ⟨s.qRemove e, s.qInsert e (s.cycle + d), exec_cancel_word ha e arg, ?_,
    exec_schedule_of_fits ha e hfit⟩
  rw [exec_schedule_of_fits (s := s.qRemove e) (accepts_setSlot ha e.ord none) e hfit, qRemove_cycle, qInsert_qRemove]

/-- Settles O22: with the event not pending a removal changes nothing, and it undoes the insertion in between. -/
theorem rearmThenCancelLeavesNotPending : Obligations.RearmThenCancelLeavesNotPending := by
  intro s e d arg hm _ hslot hfit
  have ha : s.Accepts := .inr hm
  have hnoop := qRemove_of_not_pending hslot
  refine ⟨?_, s.qInsert e (s.cycle + d), exec_schedule_of_fits ha e hfit, slot_qInsert_self s e _, ?_⟩
  · rw [exec_cancel_word ha, hnoop]
  · rw [exec_cancel_word (s := s.qInsert e (s.cycle + d)) (accepts_setSlot ha e.ord _), qRemove_qInsert, hnoop]

end Sys2Proof.QueueCommands
end

section
/-! The clock command ADVANCE and the handshake command DONE (spec/41_clock_and_dispatch.md R121, R122, R124): what each
does where it is accepted. -/

namespace Sys2Proof.ClockAndDone

open Sys2Proof.Machine Sys2Proof.Laws Sys2Proof.CommandEncoding Sys2Proof.OutputPorts

/-- A word with the OP of a command without event above zeros decodes to that command (R77, R79). -/
theorem decode_of_no_event {i : Instr} {op : BitVec 4} {base : CmdWord} (hop : i.opCode = op)
    (hev : i.evOperand = 0) (hbase : cmdOfFields op 0 0 = base) : decode ⟨base, i.argOperand⟩ = .ok i :=
  decode_eq_ok_iff.mpr (encode_eq_of_no_event hop hev hbase)

/-- In IDLE and HANDLER an ADVANCE whose sum fits adds to the counter, and the mode follows R121 and R122. -/
theorem exec_advance_of_fits {s : State} (ha : s.Accepts) {n : U64} (hfit : s.cycle.toNat + n.toNat < 2 ^ 64) :
    exec (.advance n) s = .next { s with cycle := s.cycle + n, mode := s.mode.afterAdvance } := by
  simp only [exec, execAdvance, accepting_of_accepts ha, State.withSum, addExact_of_fits hfit]

/-- In IDLE and HANDLER an ADVANCE whose sum does not fit raises CYCLE_OVERFLOW (R121, R122, R190). -/
theorem exec_advance_of_overflows {s : State} (ha : s.Accepts) {n : U64}
    (hover : 2 ^ 64 ≤ s.cycle.toNat + n.toNat) :
    exec (.advance n) s = .next (s.raise .cycleOverflow s.runningWord n) := by
  simp only [exec, execAdvance, accepting_of_accepts ha, State.withSum, addExact_of_overflows hover]

/-- In IDLE an overflowing ADVANCE records no event word (R121). -/
theorem runningWord_of_idle {s : State} (hm : s.mode = .idle) : s.runningWord = none := by
  simp only [State.runningWord, hm]

/-- In HANDLER an overflowing ADVANCE records the word in `cur` (R122). -/
theorem runningWord_of_handler {s : State} {e : Event} (hm : s.mode = .handler) (he : s.cur = some e) :
    s.runningWord = some e.word := by
  simp only [State.runningWord, hm, State.curWord, he, Option.map_some]

/-- In HANDLER a DONE is the return from the handler (R124). -/
theorem exec_done_of_handler {s : State} (hm : s.mode = .handler) (arg : U64) :
    exec (.done arg) s = .next s.handlerReturn := by
  simp only [exec, execDone, accepting_of_handler hm, State.handshake, hm]

/-- In IDLE a DONE raises PROTOCOL (R187). -/
theorem exec_done_of_idle {s : State} (hm : s.mode = .idle) (arg : U64) :
    exec (.done arg) s = .next (s.raise .protocol none 0x50000000) := by
  simp only [exec, execDone, accepting_of_idle hm, State.handshake, hm, recorded_done]

/-- Writing the counter, the mode and `cur` leaves the store, the fault record and the port (R120). -/
theorem sameStoreAndRecord_of_clock (s : State) (c : U64) (m : Mode) (e : Option Event) :
    State.SameStoreAndRecord s { s with cycle := c, mode := m, cur := e } :=
  ⟨fun _ => rfl, rfl, rfl, rfl, rfl, rfl⟩

/-- Settles O14: the sum fits and the pass starts, or it does not and CYCLE_OVERFLOW is raised without an event. -/
theorem advanceStartsPass : Obligations.AdvanceStartsPass := by
  intro s n hm
  refine ⟨decode_of_no_event (i := .advance n) (op := 4) rfl rfl rfl, fun hfit => ?_, fun hover => ?_⟩
  · exact ⟨_, exec_advance_of_fits (.inl hm) hfit, BitVec.toNat_add_of_lt hfit, by simp only [hm, Mode.afterAdvance],
      rfl, sameStoreAndRecord_of_clock s _ _ s.cur⟩
  · refine ⟨_, exec_advance_of_overflows (.inl hm) hover, ?_⟩
    rw [runningWord_of_idle hm]
    exact raise_faultedWith s .cycleOverflow none n

/-- Settles O15: the sum fits and only the counter moves, or it does not and CYCLE_OVERFLOW is raised with `cur`. -/
theorem advanceInHandlerOnlyAdds : Obligations.AdvanceInHandlerOnlyAdds := by
  refine fun s e n hm he => ⟨fun hfit => ?_, fun hover => ?_⟩
  · exact ⟨_, exec_advance_of_fits (.inr hm) hfit, BitVec.toNat_add_of_lt hfit, by simp only [hm, Mode.afterAdvance],
      he, sameStoreAndRecord_of_clock s _ _ s.cur⟩
  · refine ⟨_, exec_advance_of_overflows (.inr hm) hover, ?_⟩
    rw [runningWord_of_handler hm he]
    exact raise_faultedWith s .cycleOverflow (some e.word) n

/-- Settles O16: DONE is the return from the handler in HANDLER and the fault entry of PROTOCOL in IDLE. -/
theorem doneReturnsToArbiter : Obligations.DoneReturnsToArbiter := by
  refine fun s arg => ⟨decode_of_no_event (i := .done arg) (op := 5) rfl rfl rfl, fun hm => ?_, fun hm => ?_⟩
  · exact ⟨_, exec_done_of_handler hm arg, rfl, rfl, rfl, sameStoreAndRecord_of_clock s s.cycle .check none, rfl,
      hsel_of_not_running (.inr rfl)⟩
  · exact ⟨_, exec_done_of_idle hm arg, raise_faultedWith s .protocol none 0x50000000⟩

end Sys2Proof.ClockAndDone
end

section
/-! The arbiter (spec/41_clock_and_dispatch.md R126 to R133): which of its three outcomes an ARBITRATE has, as facts about
the slots, and what each leaves behind. -/

namespace Sys2Proof.ArbiterOutcomes

open Sys2Proof.Machine Sys2Proof.Laws Sys2Proof.DerivedFlags Sys2Proof.OutputPorts

/-- An entry keeps the store from being empty. -/
theorem qEmpty_eq_false_of_slot {s : State} {i : SlotIndex} {d : U64} (h : s.slot i = some d) : s.qEmpty = false := by
  rw [← Bool.not_eq_true, qEmpty_iff]
  intro hempty
  rw [hempty i] at h
  cases h

/-- Without a head the arbiter raises QUEUE_EMPTY (R133, R183). -/
theorem arbitrate_of_qEmpty {s : State} (h : s.qEmpty = true) : s.arbitrate = s.raise .queueEmpty none s.cycle := by
  have hq : s.headWith lowestFirst = none := qHead_eq_none.mpr h
  simp only [State.arbitrate, State.arbitrateWith, hq]

/-- A least entry that is due is dispatched (R126, R128, R129). -/
theorem arbitrate_of_leastEntry_due {s : State} {i : SlotIndex} {d : U64} (h : LeastEntry s i d) (hdue : d ≤ s.cycle) :
    s.arbitrate = s.dispatch i := by
  have hq : s.headWith lowestFirst = some (i, d) := qHead_eq_some.mpr h
  simp only [State.arbitrate, State.arbitrateWith, hq, if_pos hdue]

/-- With entries that are all in the future the arbiter ends the pass (R132). -/
theorem arbitrate_of_future {s : State} (hne : s.qEmpty = false) (hfuture : ∀ j d, s.slot j = some d → s.cycle < d) :
    s.arbitrate = { s with mode := .idle } := by
  generalize h : s.arbitrate = t
  cases arbitrate_effect h with
  | empty he => rw [hne] at he; cases he
  | dispatched i d hslot _ hdue => exact absurd (hfuture i d hslot) (BitVec.not_lt.mpr hdue)
  | ended => rfl

/-- Entries that are all in the future leave no slot due (R30, R132). -/
theorem allFuture_of_slots {s : State} (h : ∀ j d, s.slot j = some d → s.cycle < d) : s.AllFuture := by
  intro i
  rw [← Bool.not_eq_true, due_iff]
  rintro ⟨d, hslot, hdue⟩
  exact BitVec.not_lt.mpr hdue (h i d hslot)

/-- Under every consistent tie-break an ARBITRATE faults exactly when the store is empty (R133). -/
theorem arbitrateWith_mode_eq_fault {tie : TiePolicy} (htie : tie.Consistent) {s : State} :
    (s.arbitrateWith tie).mode = .fault ↔ ∀ i, s.slot i = none := by
  rw [← qEmpty_iff]
  generalize h : s.arbitrateWith tie = t
  cases arbitrateWith_effect htie h with
  | empty he => exact iff_of_true rfl he
  | dispatched i d hslot => exact iff_of_false nofun (Bool.eq_false_iff.mp (qEmpty_eq_false_of_slot hslot))
  | ended hne => exact iff_of_false nofun (Bool.eq_false_iff.mp hne)

/-- Settles O23: the step is one ARBITRATE, which faults exactly on an empty store. -/
theorem emptyStoreFaults : Obligations.EmptyStoreFaults := by
  refine fun s hm hnr => ⟨_, step_of_check hm hnr, fun hempty => ?_, fun ⟨i, d, hslot⟩ hfault => ?_⟩
  · rw [arbitrate_of_qEmpty (qEmpty_iff.mpr hempty)]
    exact raise_faultedWith { s with port := s.portLeft } .queueEmpty none s.cycle
  · have hnone := (arbitrateWith_mode_eq_fault lowestFirst_consistent).mp hfault i
    rw [hslot] at hnone
    cases hnone

/-- Settles O24: the step is one ARBITRATE, which dispatches the least entry. -/
theorem dispatchPopsHead : Obligations.DispatchPopsHead := by
  intro s i d hm hnr hslot hdue hleast
  refine ⟨_, step_of_check hm hnr, ?_⟩
  rw [arbitrate_of_leastEntry_due ⟨hslot, hleast⟩ hdue]
  exact ⟨rfl, rfl, slot_setSlot_self s i none, fun _ hj => slot_setSlot_of_ne s none hj, rfl, rfl, rfl, rfl, rfl, rfl,
    dispEv_of_handler rfl⟩

/-- Settles O25: the step is one ARBITRATE, which moves the mode to IDLE and nothing else. -/
theorem passEndsWhenHeadIsFuture : Obligations.PassEndsWhenHeadIsFuture := by
  intro s hm hnr ⟨i, d, hslot⟩ hfuture
  refine ⟨_, step_of_check hm hnr, ?_⟩
  rw [arbitrate_of_future (qEmpty_eq_false_of_slot hslot) hfuture]
  exact ⟨rfl, rfl, rfl, ⟨fun _ => rfl, rfl, rfl, rfl, rfl, rfl⟩, allFuture_of_slots hfuture⟩

/-- Settles O26: one case for each outcome of an ARBITRATE. -/
theorem arbiterUnderAnyTie : Obligations.ArbiterUnderAnyTie := by
  intro tie s htie
  have hfault := arbitrateWith_mode_eq_fault (s := s) htie
  generalize h : s.arbitrateWith tie = t at hfault ⊢
  cases arbitrateWith_effect htie h with
  | empty => exact ⟨nofun, nofun, hfault, nofun⟩
  | dispatched i d hslot hleast hdue =>
    exact ⟨fun _ => ⟨i, d, hslot, hdue, hleast, rfl, slot_setSlot_self s i none⟩, nofun, hfault, nofun⟩
  | ended _ hfuture => exact ⟨nofun, fun _ => hfuture, hfault, nofun⟩

end Sys2Proof.ArbiterOutcomes
end

section
/-! What a drain pass keeps from step to step (spec/41_clock_and_dispatch.md R134, R135): due entries, and the running
handler's event until its DONE. -/

namespace Sys2Proof.PassSteps

open Sys2Proof.Machine Sys2Proof.Laws Sys2Proof.DerivedFlags Sys2Proof.StepWriters

/-- A step without reset leaves the counter where it was or above (R21). -/
theorem cycle_le_of_step {s t : State} (hstep : step s = .next t) (hnr : ∀ rest, s.port ≠ .reset :: rest) :
    s.cycle ≤ t.cycle := by
  rcases onlyAdvanceMovesCounter s t hstep hnr with hsame | ⟨_, _, n, _, _, _, hsum⟩
  · exact BitVec.le_of_eq hsame.symm
  · rw [BitVec.le_def, hsum]
    exact Nat.le_add_right _ _

/-- While a slot is due no step without reset enters IDLE from another mode (R132, R134). -/
theorem mode_ne_idle_of_due {s t : State} {i : SlotIndex} (hm : s.mode ≠ .idle) (hdue : s.due i = true)
    (hstep : step s = .next t) (hnr : ∀ rest, s.port ≠ .reset :: rest) : t.mode ≠ .idle := by
  intro ht
  have hne : t.mode ≠ s.mode := fun h => hm (h.symm.trans ht)
  have hhead : s.headIsDue = true := headIsDue_iff_due.mpr ⟨i, hdue⟩
  rcases modeTransitionsAreListed s t hstep hnr hne with
    ⟨-, h, -⟩ | ⟨-, h, -⟩ | ⟨-, -, -, hnot⟩ | ⟨-, h, -⟩ | ⟨-, h, -⟩
  case inr.inr.inl => exact absurd (hhead.symm.trans hnot) nofun
  all_goals exact absurd (ht.symm.trans h) nofun

/-- Settles O27: an unwritten slot stays due since the counter only grows, and a written one has one of the writers that
O31 lists, of which RUN_NOW makes it due again. -/
theorem dueEntrySurvivesUntilDispatched : Obligations.DueEntrySurvivesUntilDispatched := by
  intro s t i hm hdue hstep hnr
  have hcycle := cycle_le_of_step hstep hnr
  have hne : s.mode ≠ .idle := by rcases hm with h | h <;> simp [h]
  have hhandler : s.Accepts → s.mode = .handler := fun ha => ha.resolve_left hne
  refine ⟨mode_ne_idle_of_due hne hdue hstep hnr, ?_⟩
  by_cases hsame : t.slot i = s.slot i
  · obtain ⟨d, hslot, hd⟩ := due_iff.mp hdue
    exact .inl (due_iff.mpr ⟨d, hsame.trans hslot, BitVec.le_trans hd hcycle⟩)
  · rcases storeWritersAreListed s t i hstep hnr hsame with ⟨r, rest, d, _, ha, hp, hd, -⟩ |
      ⟨_, _, _, _, _, _, hslot⟩ | ⟨r, rest, d, ha, hp, hd, -⟩ | ⟨hcheck, ht, -, hcur, -⟩
    · exact .inr (.inr ⟨r, rest, d, hhandler ha, hp, .inr hd⟩)
    · exact .inl (due_iff.mpr ⟨s.cycle, hslot, hcycle⟩)
    · exact .inr (.inr ⟨r, rest, d, hhandler ha, hp, .inl hd⟩)
    · exact .inr (.inl ⟨hcheck, ht, hcur⟩)

/-- A command in HANDLER keeps `cur` and stays there or faults, or is a DONE, which clears `cur` and leads to CHECK
(R135). -/
theorem cur_of_effect_in_handler {s t : State} {i : Instr} (he : Effect s i t) (hm : s.mode = .handler) :
    (t.cur = s.cur ∧ (t.mode = .handler ∨ t.mode = .fault)) ∨
      (t.cur = none ∧ t.mode = .check ∧ ∃ arg, i = .done arg) := by
  cases he with
  | held | inserted | removed | insertedNow => exact .inl ⟨rfl, .inl hm⟩
  | clockMoved => exact .inl ⟨rfl, .inl rfl⟩
  | illegalEvent | dueOverflow | cycleOverflow | aborted | protocol => exact .inl ⟨rfl, .inr rfl⟩
  | passStarted _ hi => exact absurd (hi.symm.trans hm) nofun
  | returned arg => exact .inr ⟨rfl, rfl, arg, rfl⟩

/-- Settles O28: one case for each effect of a step. -/
theorem handlersDoNotNest : Obligations.HandlersDoNotNest := by
  intro s t hm hstep hnr
  cases effect_of_step hstep with
  | reset rest hp => exact absurd hp (hnr rest)
  | arbitrated _ _ hc => exact absurd (hc.symm.trans hm) nofun
  | waited | discarded => exact .inl ⟨rfl, .inl hm⟩
  | command r rest i u hp _ hd he =>
    rcases cur_of_effect_in_handler he hm with hkept | ⟨hcur, hu, arg, rfl⟩
    · exact .inl hkept
    · exact .inr ⟨hcur, hu, r, rest, arg, hp, hd⟩
  | illegal => exact .inl ⟨rfl, .inr rfl⟩

end Sys2Proof.PassSteps
end

section
/-! Whole drain passes (spec/41_clock_and_dispatch.md R129, R132, R136): how `drain` goes on after each outcome of an
ARBITRATE, and how the steps of the machine follow it. -/

namespace Sys2Proof.DrainPasses

open Sys2Proof.Machine Sys2Proof.Laws Sys2Proof.DerivedFlags Sys2Proof.CommandPort Sys2Proof.ArbiterOutcomes
open Sys2Proof.ClockAndDone Sys2Proof.ByteForm

/-! One turn of a pass. -/

/-- The requests that the handler of slot `h` issues when an ARBITRATE in `s` dispatches it (R136). -/
abbrev turnRequests (H : Handler) (s : State) (h : SlotIndex) : List Request := H (Event.ofOrd h) (s.dispatch h)

section

variable {H : Handler} {fuel : Nat} {s u : State} {h : SlotIndex}

/-- A pass whose ARBITRATE starts no handler ends there (R132, R133). -/
theorem drain_of_ended (ha : s.arbitrate = u) (hm : u.mode = .idle ∨ u.mode = .fault) :
    drain H (fuel + 1) s = some u := by
  rcases hm with hm | hm <;> simp only [drain, ha, hm]

/-- Such a pass puts nothing on the port. -/
theorem drainTraffic_of_ended (ha : s.arbitrate = u) (hm : u.mode = .idle ∨ u.mode = .fault) :
    drainTraffic H (fuel + 1) s = [] := by
  rcases hm with hm | hm <;> simp only [drainTraffic, ha, hm]

/-- After a handler that returned, the pass goes on from where the handler left the block (R124, R136). -/
theorem drain_of_returned (ha : s.arbitrate = s.dispatch h)
    (hr : runHandler (s.dispatch h) (turnRequests H s h) = some u) (hm : u.mode = .check) :
    drain H (fuel + 1) s = drain H fuel u := by
  simp only [drain, ha, dispatch_mode, dispatch_cur, hr, Option.bind_some, hm]

/-- The traffic of such a pass is the handler's requests, then those of the rest of the pass. -/
theorem drainTraffic_of_returned (ha : s.arbitrate = s.dispatch h)
    (hr : runHandler (s.dispatch h) (turnRequests H s h) = some u) (hm : u.mode = .check) :
    drainTraffic H (fuel + 1) s = turnRequests H s h ++ drainTraffic H fuel u := by
  simp only [drainTraffic, ha, dispatch_mode, dispatch_cur, hr, hm]

/-- The traffic of a pass whose first handler faults is that handler's requests. -/
theorem drainTraffic_of_faulted (ha : s.arbitrate = s.dispatch h)
    (hr : runHandler (s.dispatch h) (turnRequests H s h) = some u) (hm : u.mode = .fault) :
    drainTraffic H (fuel + 1) s = turnRequests H s h := by
  simp only [drainTraffic, ha, dispatch_mode, dispatch_cur, hr, hm, List.append_nil]

end

/-! A pass that ends. -/

/-- Settles O46: by induction on the fuel; the pass ends at an ARBITRATE that finds every entry in the future, or in
FAULT. -/
theorem passEndingInIdleIsComplete : Obligations.PassEndingInIdleIsComplete := by
  intro H fuel
  induction fuel with
  | zero => intro s t hd; cases hd
  | succ fuel ih =>
    intro s t hd
    cases drain_effect hd with
    | empty => exact .inr rfl
    | ended hne hfuture => exact .inl ⟨rfl, hne, allFuture_of_slots hfuture⟩
    | faulted _ _ _ _ _ _ _ hm => exact .inr hm
    | turned _ _ u _ _ _ _ _ _ ht => exact ih u t ht

/-! The steps of a pass. -/

/-- Requests on the port are no reset. -/
theorem onPort_ne_reset (requests : List Request) (rest : List PortItem) : onPort requests ≠ .reset :: rest := by
  cases requests <;> simp [onPort]

/-- The arbiter's move leaves requests on the port (R33). -/
theorem portLeft_onPort {s : State} {requests : List Request} (hp : s.port = onPort requests) :
    s.portLeft = onPort requests := by
  cases requests <;> simp only [State.portLeft, hp, onPort, List.map_nil, List.map_cons]

/-- In CHECK, with requests on the port, a step is one ARBITRATE, and the requests wait (R33, R129). -/
theorem step_check_with_requests {s : State} (hm : s.mode = .check) (requests : List Request) :
    step { s with port := onPort requests } = .next { s.arbitrate with port := onPort requests } := by
  rw [step_of_check (s := { s with port := onPort requests }) hm (onPort_ne_reset requests), portLeft_onPort rfl,
    arbitrate_with_port]

/-- A list of requests whose running ends somewhere is accepted request by request: in HANDLER each has its effect, and
in FAULT it is discarded (R189). -/
theorem runHandler_cons {s t : State} {r : Request} {rest : List Request} (h : runHandler s (r :: rest) = some t) :
    s.mode ≠ .check ∧ runHandler (s.afterRequest r) rest = some t := by
  unfold runHandler at h
  cases hm : s.mode <;> rw [hm] at h
  case idle | check => cases h
  case handler => exact ⟨nofun, h⟩
  case fault =>
    obtain rfl := Option.some.inj h
    have hdiscard : s.afterRequest r = s :=
      Host.Outcome.next.inj ((accept_afterRequest s r).symm.trans (acceptRequest_of_fault hm r))
    refine ⟨nofun, ?_⟩
    rw [hdiscard]
    cases rest <;> simp only [runHandler, hm]

/-- Outside CHECK a step accepts the request at the front of the port (R33, R81). -/
theorem step_request {s : State} (hm : s.mode ≠ .check) (r : Request) (rest : List PortItem) :
    step { s with port := .command r :: rest } = .next { s.afterRequest r with port := rest } := by
  rw [step_of_command (s := { s with port := .command r :: rest }) rfl hm]
  exact afterRequest_with_port s r rest

/-- The requests of a handler, on the port before anything else, take one step each and leave the block where
`runHandler` says (R136). -/
theorem run_requests {requests : List Request} (later : List PortItem) : ∀ {s t : State},
    runHandler s requests = some t →
      Sys2Proof.core.run requests.length { s with port := onPort requests ++ later } =
        .next { t with port := later } := by
  induction requests with
  | nil =>
    intro s t h
    obtain rfl : s = t := by
      unfold runHandler at h
      cases hm : s.mode <;> rw [hm] at h <;> cases h <;> rfl
    rfl
  | cons r rest ih =>
    intro s t h
    obtain ⟨hm, hrest⟩ := runHandler_cons h
    exact (run_succ (step_request hm r (onPort rest ++ later)) rest.length).trans (ih hrest)

/-- One turn, as steps: the ARBITRATE that dispatches slot `h`, then a step for each request of its handler. -/
theorem run_turn {H : Handler} {s u : State} {h : SlotIndex} (hm : s.mode = .check) (ha : s.arbitrate = s.dispatch h)
    (hr : runHandler (s.dispatch h) (turnRequests H s h) = some u) (later : List Request) :
    Sys2Proof.core.run ((turnRequests H s h).length + 1) { s with port := onPort (turnRequests H s h ++ later) } =
      .next { u with port := onPort later } := by
  rw [run_succ (step_check_with_requests hm _), ha, onPort, List.map_append]
  exact run_requests (onPort later) hr

/-- A state with an empty port is that state with nothing put on its port. -/
theorem with_empty_port {s : State} (hp : s.port = []) : ({ s with port := onPort [] } : State) = s := by
  rw [onPort, List.map_nil, ← hp]

/-- A handler started with an empty port leaves it empty. -/
theorem port_of_turn {s u : State} {h : SlotIndex} {requests : List Request} (hp : s.port = [])
    (hr : runHandler (s.dispatch h) requests = some u) : u.port = [] :=
  (runHandler_ends hr).2.trans hp

/-- A pass that ends at its first ARBITRATE takes that one step. -/
theorem run_ended {H : Handler} {fuel : Nat} {s t : State} (hm : s.mode = .check) (hp : s.port = [])
    (ha : s.arbitrate = t) (ht : t.mode = .idle ∨ t.mode = .fault) :
    Sys2Proof.core.run 1 { s with port := onPort (drainTraffic H (fuel + 1) s) } = .next t := by
  rw [drainTraffic_of_ended ha ht, run_succ (step_check_with_requests hm []),
    with_empty_port ((arbitrate_port s).trans hp), ha]
  rfl

/-- Settles O45: by induction on the fuel; each turn is its ARBITRATE and a step for every request of its handler. -/
theorem bigStepMatchesSteps : Obligations.BigStepMatchesSteps := by
  intro H fuel
  induction fuel with
  | zero => intro s t _ _ hd; cases hd
  | succ fuel ih =>
    intro s t hm hp hd
    cases drain_effect hd with
    | empty he => exact ⟨1, run_ended hm hp (arbitrate_of_qEmpty he) (.inr rfl)⟩
    | ended hne hfuture => exact ⟨1, run_ended hm hp (arbitrate_of_future hne hfuture) (.inl rfl)⟩
    | faulted h d _ ha _ _ hr ht =>
      have hrun := run_turn hm ha hr []
      rw [List.append_nil, with_empty_port (port_of_turn hp hr)] at hrun
      exact ⟨_, by rw [drainTraffic_of_faulted ha hr ht]; exact hrun⟩
    | turned h d u _ ha _ _ hr hu ht =>
      obtain ⟨k, hk⟩ := ih u t hu (port_of_turn hp hr) ht
      refine ⟨(turnRequests H s h).length + 1 + k, ?_⟩
      rw [drainTraffic_of_returned ha hr hu, run_add (run_turn hm ha hr _)]
      exact hk

/-! Handlers that only issue DONE. -/

/-- The handler that only issues DONE (R124). -/
abbrev doneOnly (arg : U64) : Handler := fun _ _ => [encode (.done arg)]

/-- A handler that only issues DONE returns at once (R124). -/
theorem runHandler_done {s : State} (hm : s.mode = .handler) (arg : U64) :
    runHandler s [encode (.done arg)] = some s.handlerReturn := by
  have hdone : s.afterRequest (encode (.done arg)) = s.handlerReturn := by
    rw [afterRequest_of_decode (decode_encode _), State.afterCommand, exec_done_of_handler hm]
  simp only [runHandler, hm, hdone, handlerReturn_mode]

/-- A dispatch takes one entry from COUNT (R30, R128). -/
theorem count_dispatch {s : State} {h : SlotIndex} {d : U64} (hslot : s.slot h = some d) :
    (s.dispatch h).handlerReturn.count + 1 = s.count := by
  have hcount := count_setSlot s h none
  rw [hslot] at hcount
  exact hcount

/-- Where a pass over the store of `s` whose handlers only issue DONE ends: the due entries are gone, and what is left
decides between IDLE and QUEUE_EMPTY (R129, R132, R133). -/
abbrev DueEntriesGone (s t : State) : Prop :=
  t.cycle = s.cycle ∧ (∀ i, t.slot i = if s.due i then none else s.slot i) ∧
    ((t.mode = .idle ∧ ∃ i, (t.slot i).isSome = true) ∨
      (t.mode = .fault ∧ t.fcode = .queueEmpty ∧ ∀ i, t.slot i = none))

/-- Popping a due entry first leaves the same entries to be gone in the end. -/
theorem dueEntriesGone_of_dispatch {s t : State} {h : SlotIndex} {d : U64} (hslot : s.slot h = some d)
    (hdue : d ≤ s.cycle) (ht : DueEntriesGone (s.dispatch h).handlerReturn t) : DueEntriesGone s t := by
  obtain ⟨hcycle, hslots, hend⟩ := ht
  refine ⟨hcycle, fun i => (hslots i).trans ?_, hend⟩
  by_cases hi : i = h
  · subst hi
    rw [if_pos (due_iff.mpr ⟨d, hslot, hdue⟩), slot_handlerReturn, slot_dispatch, if_pos rfl, ite_self]
  · have hsame : (s.dispatch h).handlerReturn.slot i = s.slot i := slot_setSlot_of_ne s none hi
    have hdueSame : (s.dispatch h).handlerReturn.due i = s.due i := by
      rw [State.due, State.due, hsame]
      rfl
    rw [hsame, hdueSame]

/-- Entries that are all in the future are all left. -/
theorem slot_of_future {s : State} (h : ∀ j d, s.slot j = some d → s.cycle < d) (i : SlotIndex) :
    s.slot i = if s.due i then none else s.slot i := by
  rw [allFuture_of_slots h i, if_neg Bool.false_ne_true]

/-- With fuel above COUNT a pass whose handlers only issue DONE ends: each turn takes one due entry away. -/
theorem exists_drain_doneOnly (arg : U64) {fuel : Nat} : ∀ {s : State}, s.count < fuel →
    ∃ t, drain (doneOnly arg) fuel s = some t ∧ DueEntriesGone s t := by
  induction fuel with
  | zero => exact fun h => absurd h (Nat.not_lt_zero _)
  | succ fuel ih =>
    intro s hfuel
    generalize ha : s.arbitrate = u
    cases arbitrate_effect ha with
    | empty he =>
      have hnone := qEmpty_iff.mp he
      refine ⟨_, drain_of_ended ha (.inr rfl), rfl, fun i => ?_, .inr ⟨rfl, rfl, hnone⟩⟩
      simp only [slot_raise, hnone, ite_self]
    | ended hne hfuture =>
      obtain ⟨i, d, hslot⟩ := headValid_iff.mp (by rw [State.headValid, hne]; rfl)
      exact ⟨_, drain_of_ended ha (.inl rfl), rfl, slot_of_future hfuture,
        .inl ⟨rfl, i, Option.isSome_iff_exists.mpr ⟨d, hslot⟩⟩⟩
    | dispatched h d hslot _ hdue =>
      have hless : (s.dispatch h).handlerReturn.count < fuel := by
        have := count_dispatch hslot
        omega
      obtain ⟨t, hdrain, hgone⟩ := ih hless
      refine ⟨t, ?_, dueEntriesGone_of_dispatch hslot hdue hgone⟩
      rw [drain_of_returned ha (runHandler_done (dispatch_mode s h) arg) (handlerReturn_mode _), hdrain]

/-- Settles O47: COUNT + 1 is fuel enough. -/
theorem doneOnlyPassEnds : Obligations.DoneOnlyPassEnds :=
  fun s arg _ => exists_drain_doneOnly arg (Nat.lt_succ_self s.count)

end Sys2Proof.DrainPasses
end

section
/-! How the script of a handler runs (spec/42_event_kinds_and_clients.md R151): command by command up to its DONE, or up to
the first command that faults. -/

namespace Sys2Proof.HandlerScripts

open Sys2Proof.Machine Sys2Proof.Laws Sys2Proof.ByteForm Sys2Proof.ClockAndDone Sys2Proof.DrainPasses

/-- In FAULT a handler's requests are over (R189). -/
theorem runHandler_of_fault {s : State} (hm : s.mode = .fault) (requests : List Request) :
    runHandler s requests = some s := by
  cases requests <;> simp only [runHandler, hm]

/-- In HANDLER the first command of a script has its effect, and the rest runs from there (R136). -/
theorem runHandler_encode {s : State} (hm : s.mode = .handler) (i : Instr) (rest : List Request) :
    runHandler s (encode i :: rest) = runHandler (s.afterCommand i) rest := by
  simp only [runHandler, hm, afterRequest_of_decode (decode_encode i)]

/-- A well-ended script that does not abort is a body of other commands with a DONE behind it (R151). -/
theorem exists_body_of_wellEnded {script : Script} (hend : wellEnded script = true) (hab : aborts script = false) :
    ∃ (body : Script) (arg : U64), script = body ++ [.done arg] ∧ ∀ i ∈ body, endsHandler i = false := by
  induction script with
  | nil => cases hend
  | cons i rest ih =>
    cases rest with
    | nil =>
      cases i with
      | done arg => exact ⟨[], arg, rfl, nofun⟩
      | abort => cases hab
      | _ => cases hend
    | cons j rest =>
      simp only [wellEnded, Bool.and_eq_true, Bool.not_eq_true'] at hend
      obtain ⟨hi, hrest⟩ := hend
      have hab' : aborts (j :: rest) = false := by
        rw [aborts, List.any_cons, Bool.or_eq_false_iff] at hab
        exact hab.2
      obtain ⟨body, arg, heq, hbody⟩ := ih hrest hab'
      exact ⟨i :: body, arg, by rw [heq, List.cons_append], List.forall_mem_cons.mpr ⟨hi, hbody⟩⟩

/-- A property `I` of the commands that are left and the state, which every command in HANDLER keeps unless it faults
with a code in `F`, holds where the script returns with none left. -/
theorem runHandler_returns_or_faults {I : Script → State → Prop} {F : FaultCode → Prop} (arg : U64)
    (hcommand : ∀ i rest s, s.mode = .handler → I (i :: rest) s →
      ((s.afterCommand i).mode = .handler ∧ I rest (s.afterCommand i)) ∨
        ((s.afterCommand i).mode = .fault ∧ F (s.afterCommand i).fcode))
    {body : Script} : ∀ {s : State}, s.mode = .handler → I body s →
    ∃ t, runHandler s (Script.requests (body ++ [.done arg])) = some t ∧
      ((∃ u, I [] u ∧ t = u.handlerReturn) ∨ (t.mode = .fault ∧ F t.fcode)) := by
  induction body with
  | nil => exact fun {s} hm hI => ⟨_, runHandler_done hm arg, .inl ⟨s, hI, rfl⟩⟩
  | cons i rest ih =>
    intro s hm hI
    have hrun := runHandler_encode hm i (Script.requests (rest ++ [.done arg]))
    rcases hcommand i rest s hm hI with ⟨hm', hI'⟩ | ⟨hfault, hcode⟩
    · obtain ⟨t, ht, hend⟩ := ih hm' hI'
      exact ⟨t, hrun.trans ht, hend⟩
    · exact ⟨_, hrun.trans (runHandler_of_fault hfault _), .inr ⟨hfault, hcode⟩⟩

/-! Which commands the tests of the contract name. -/

/-- The command is a SCHEDULE of the event with a delay that passes the test. -/
theorem schedulesIn_iff {e : Event} {test : U64 → Bool} {i : Instr} :
    schedulesIn e test i = true ↔ ∃ d, i = .schedule e.word d ∧ test d = true := by
  cases i <;> simp [schedulesIn]

/-- The command is a RUN_NOW of the event or a SCHEDULE of it with delay 0 (R104). -/
theorem makesDue_iff {e : Event} {i : Instr} :
    makesDue e i = true ↔ i = .schedule e.word 0 ∨ ∃ arg, i = .runNow e.word arg := by
  cases i <;> simp [makesDue]

end Sys2Proof.HandlerScripts
end

section
/-! Drain passes whose handlers keep one perpetual event armed (spec/42_event_kinds_and_clients.md R167;
spec/60_exceptions.md R183): the event is pending at every ARBITRATE, so that the store is never empty there. -/

namespace Sys2Proof.ArmedPasses

open Sys2Proof.Machine Sys2Proof.Laws Sys2Proof.HandlerScripts

/-- A sum that did not fit: the two codes of R190 and R191. -/
abbrev Overflow (f : FaultCode) : Prop := f = .cycleOverflow ∨ f = .dueOverflow

/-- A command of a handler's body that is well formed and does not cancel `e` (R212). -/
abbrev KeepsPending (e : Event) (i : Instr) : Prop :=
  endsHandler i = false ∧ i.wellFormed = true ∧ cancels e i = false

/-- What holds while the handler of such clients runs, with `body` left: `e` is pending, or will be scheduled. -/
abbrev ArmedOrScheduled (e : Event) (body : Script) (s : State) : Prop :=
  (∀ i ∈ body, KeepsPending e i) ∧ ((s.slot e.ord).isSome = true ∨ scheduled e body ≠ [])

/-- What is to be scheduled is scheduled by the next command or by a later one. -/
theorem scheduled_cons_ne_nil {e : Event} {i : Instr} {rest : Script} (h : scheduled e (i :: rest) ≠ []) :
    (∃ d, i = .schedule e.word d) ∨ scheduled e rest ≠ [] := by
  cases i with
  | schedule ev d =>
    by_cases hev : ev = e.word
    · exact .inl ⟨d, by rw [hev]⟩
    · exact .inr (by simpa [scheduled, scheduleDelay, hev] using h)
  | _ => exact .inr h

/-- An event-taking command with an illegal event word is not well formed (R80). -/
theorem wellFormed_of_illegal {i : Instr} (ht : TakesEvent i) (hl : EventWord.legal i.evOperand = false) :
    i.wellFormed = false := by
  cases i with
  | schedule | cancel | runNow => exact hl
  | advance | done | abort => exact ht.elim

/-- An insertion leaves every pending event pending, and its own. -/
theorem isSome_slot_qInsert {s : State} {e f : Event} {d : U64} (h : (s.slot e.ord).isSome = true ∨ f = e) :
    ((s.qInsert f d).slot e.ord).isSome = true := by
  rw [slot_qInsert]
  split
  · rfl
  · next hne => exact h.resolve_right fun hfe => hne (by rw [hfe])

/-- In HANDLER such a command keeps `e` pending, arms it when it schedules it, or overflows. -/
theorem pending_of_effect {e : Event} {s t : State} {i : Instr} (he : Effect s i t) (hm : s.mode = .handler)
    (hi : KeepsPending e i) :
    (t.mode = .handler ∧ ((s.slot e.ord).isSome = true ∨ (∃ d, i = .schedule e.word d) →
        (t.slot e.ord).isSome = true)) ∨
      (t.mode = .fault ∧ Overflow t.fcode) := by
  obtain ⟨hend, hwf, hcancel⟩ := hi
  cases he with
  | held _ hheld => simp [hm] at hheld
  | illegalEvent _ _ ht hl => exact absurd (hwf.symm.trans (wellFormed_of_illegal ht hl)) nofun
  | inserted f d =>
    refine .inl ⟨hm, fun h => isSome_slot_qInsert (h.imp_right ?_)⟩
    rintro ⟨_, hf⟩
    exact word_injective (Instr.schedule.inj hf).1
  | removed f =>
    refine .inl ⟨hm, fun h => ?_⟩
    have hne : e.ord ≠ f.ord := fun hef => by
      rw [ord_injective hef, cancels, beq_self_eq_true] at hcancel
      cases hcancel
    rw [slot_qRemove, if_neg hne]
    exact h.resolve_right nofun
  | insertedNow f => exact .inl ⟨hm, fun h => isSome_slot_qInsert (h.imp_right nofun)⟩
  | clockMoved => exact .inl ⟨rfl, fun h => h.resolve_right nofun⟩
  | dueOverflow => exact .inr ⟨rfl, .inr rfl⟩
  | cycleOverflow => exact .inr ⟨rfl, .inl rfl⟩
  | passStarted _ hidle => exact absurd (hidle.symm.trans hm) nofun
  | returned | aborted => cases hend
  | protocol _ hidle => exact absurd (hidle.symm.trans hm) nofun

/-- Each command of the body keeps what holds while the handler runs, or overflows. -/
theorem armedOrScheduled_afterCommand (e : Event) (i : Instr) (rest : Script) (s : State) (hm : s.mode = .handler)
    (h : ArmedOrScheduled e (i :: rest) s) :
    ((s.afterCommand i).mode = .handler ∧ ArmedOrScheduled e rest (s.afterCommand i)) ∨
      ((s.afterCommand i).mode = .fault ∧ Overflow (s.afterCommand i).fcode) := by
  obtain ⟨hbody, harmed⟩ := h
  obtain ⟨hi, hrest⟩ := List.forall_mem_cons.mp hbody
  refine (pending_of_effect (effect_of_afterCommand rfl) hm hi).imp_left ?_
  rintro ⟨hm', hpending⟩
  refine ⟨hm', hrest, ?_⟩
  rcases harmed with hslot | hsched
  · exact .inl (hpending (.inl hslot))
  · exact (scheduled_cons_ne_nil hsched).imp_left fun hnow => hpending (.inr hnow)

/-- The handler of `f`, started with the perpetual event pending or `f` itself the perpetual event, returns with it
pending, or overflows. -/
theorem turn_of_keepsArmed {H : Handler} {e f : Event} {s t : State} (hH : H.KeepsArmed e) (hm : s.mode = .handler)
    (harmed : (s.slot e.ord).isSome = true ∨ f = e) (hr : runHandler s (H f s) = some t) :
    (t.mode = .check ∧ (t.slot e.ord).isSome = true) ∨ (t.mode = .fault ∧ Overflow t.fcode) := by
  obtain ⟨script, hscript, hend, hab, hwf, hcancel, hsched⟩ := hH f s
  obtain ⟨body, arg, rfl, hbody⟩ := exists_body_of_wellEnded hend hab
  have hscheduled : scheduled e (body ++ [.done arg]) = scheduled e body := by
    simp [scheduled, scheduleDelay]
  rw [hscheduled] at hsched
  have hstart : ArmedOrScheduled e body s :=
    ⟨fun i hi => ⟨hbody i hi, hwf i (List.mem_append_left _ hi), hcancel i (List.mem_append_left _ hi)⟩,
      harmed.imp_right hsched⟩
  obtain ⟨t', ht', hout⟩ := runHandler_returns_or_faults arg (armedOrScheduled_afterCommand e) hm hstart
  obtain rfl : t' = t := Option.some.inj (ht'.symm.trans ((congrArg _ hscript).symm.trans hr))
  refine hout.imp_left ?_
  rintro ⟨u, ⟨-, hu⟩, rfl⟩
  exact ⟨rfl, hu.resolve_right fun h => h rfl⟩

/-- After a dispatch the perpetual event is pending still, or it is the event dispatched (R128). -/
theorem pending_or_dispatched {e : Event} {s : State} (h : SlotIndex) (hp : (s.slot e.ord).isSome = true) :
    ((s.dispatch h).slot e.ord).isSome = true ∨ Event.ofOrd h = e := by
  by_cases heh : e.ord = h
  · exact .inr (by rw [← heh, ofOrd_ord])
  · exact .inl (by rw [slot_dispatch, if_neg heh]; exact hp)

/-- Settles O48: by induction on the fuel; the event is pending at every ARBITRATE, so that none finds the store empty,
and each handler returns with it pending or overflows. -/
theorem armedPassFaultsOnlyOnOverflow : Obligations.ArmedPassFaultsOnlyOnOverflow := by
  intro H e fuel
  induction fuel with
  | zero => intro s t _ _ _ hd; cases hd
  | succ fuel ih =>
    intro s t hH _ hp hd
    cases drain_effect hd with
    | empty hempty =>
      rw [qEmpty_iff.mp hempty e.ord] at hp
      cases hp
    | ended => exact .inl ⟨rfl, hp⟩
    | faulted h _ _ _ _ _ hr ht =>
      rcases turn_of_keepsArmed hH (dispatch_mode s h) (pending_or_dispatched h hp) hr with ⟨hcheck, -⟩ | hover
      · exact absurd (hcheck.symm.trans ht) nofun
      · exact .inr hover
    | turned h _ u _ _ _ _ hr hu ht =>
      rcases turn_of_keepsArmed hH (dispatch_mode s h) (pending_or_dispatched h hp) hr with ⟨-, hslot⟩ | ⟨hfault, -⟩
      · exact ih u t hH hu hslot ht
      · exact absurd (hu.symm.trans hfault) nofun

end Sys2Proof.ArmedPasses
end

section
/-! The clients' own duties (spec/42_event_kinds_and_clients.md R156, R161, R163): the two perpetual handlers re-arm their
event one period after the counter, and an audio channel's delay comes from its reload value. -/

namespace Sys2Proof.ClientContracts

open Sys2Proof.Machine Sys2Proof.Laws Sys2Proof.HandlerScripts Sys2Proof.QueueCommands

/-! The two perpetual handlers. -/

/-- The commands that such a handler issues before its end: the SCHEDULE of its own event after one period, and commands
that arm other events (R156, R157, R161). -/
inductive RearmCommand (e : Event) (period : U64) : Instr → Prop
  | own : RearmCommand e period (.schedule e.word period)
  | other (f : Event) (hf : f ≠ e) (d : U64) : RearmCommand e period (.schedule f.word d)
  | otherNow (f : Event) (hf : f ≠ e) (arg : U64) : RearmCommand e period (.runNow f.word arg)

/-- The event is pending at the exact sum of `c` and the period (R101). -/
abbrev ArmedAt (e : Event) (period c : U64) (s : State) : Prop :=
  c.toNat + period.toNat < 2 ^ 64 ∧ s.slot e.ord = some (c + period)

/-- What holds while such a handler runs, with `body` left: the counter is unmoved, and the event is pending one period
after it, or will be. -/
abbrev Rearming (e : Event) (period c : U64) (body : Script) (s : State) : Prop :=
  (∀ i ∈ body, RearmCommand e period i) ∧ s.cycle = c ∧ (ArmedAt e period c s ∨ .schedule e.word period ∈ body)

/-- How such a handler ends that started in `s`: in CHECK with the counter unmoved and the event pending one period after
it, or with a sum that did not fit. -/
abbrev RearmedOrOverflowed (e : Event) (period : U64) (s t : State) : Prop :=
  (t.mode = .check ∧ t.cycle = s.cycle ∧ ArmedAt e period s.cycle t) ∨ (t.mode = .fault ∧ t.fcode = .dueOverflow)

/-- Arming another event leaves the event armed as it was. -/
theorem armedAt_qInsert_other {e f : Event} {period c d : U64} {s : State} (hf : f ≠ e) (h : ArmedAt e period c s) :
    ArmedAt e period c (s.qInsert f d) := by
  obtain ⟨hfit, hslot⟩ := h
  exact ⟨hfit, by rw [slot_qInsert, if_neg fun heq => hf (ord_injective heq).symm, hslot]⟩

/-- In HANDLER a SCHEDULE inserts its event, or its sum does not fit (R101, R191). -/
theorem afterCommand_schedule {s : State} (hm : s.mode = .handler) (f : Event) (d : U64) :
    (s.cycle.toNat + d.toNat < 2 ^ 64 ∧ s.afterCommand (.schedule f.word d) = s.qInsert f (s.cycle + d)) ∨
      ((s.afterCommand (.schedule f.word d)).mode = .fault ∧
        (s.afterCommand (.schedule f.word d)).fcode = .dueOverflow) := by
  have hexec := exec_afterCommand (.schedule f.word d) s
  rcases Nat.lt_or_ge (s.cycle.toNat + d.toNat) (2 ^ 64) with hfit | hover
  · rw [exec_schedule_of_fits (.inr hm) f hfit] at hexec
    exact .inl ⟨hfit, (Host.Outcome.next.inj hexec).symm⟩
  · rw [exec_schedule_of_overflows (.inr hm) f hover] at hexec
    rw [← Host.Outcome.next.inj hexec]
    exact .inr ⟨rfl, rfl⟩

/-- In HANDLER a RUN_NOW inserts its event at the counter's value (R103). -/
theorem afterCommand_runNow {s : State} (hm : s.mode = .handler) (f : Event) (arg : U64) :
    s.afterCommand (.runNow f.word arg) = s.qInsert f s.cycle := by
  have hexec := exec_afterCommand (.runNow f.word arg) s
  rw [exec_runNow_gated, accepting_of_handler hm] at hexec
  exact (Host.Outcome.next.inj hexec).symm

/-- Each command of the body keeps what holds while the handler runs, or its sum does not fit. -/
theorem rearming_afterCommand (e : Event) (period c : U64) (i : Instr) (rest : Script) (s : State)
    (hm : s.mode = .handler) (h : Rearming e period c (i :: rest) s) :
    ((s.afterCommand i).mode = .handler ∧ Rearming e period c rest (s.afterCommand i)) ∨
      ((s.afterCommand i).mode = .fault ∧ (s.afterCommand i).fcode = .dueOverflow) := by
  obtain ⟨hbody, rfl, harmed⟩ := h
  obtain ⟨hi, hrest⟩ := List.forall_mem_cons.mp hbody
  rw [List.mem_cons] at harmed
  cases hi with
  | own =>
    refine (afterCommand_schedule hm e period).imp_left ?_
    rintro ⟨hfit, heq⟩
    rw [heq]
    exact ⟨hm, hrest, rfl, .inl ⟨hfit, slot_qInsert_self s e _⟩⟩
  | other f hf d =>
    have hown : Instr.schedule e.word period ≠ .schedule f.word d :=
      fun h => hf (word_injective (Instr.schedule.inj h).1).symm
    refine (afterCommand_schedule hm f d).imp_left ?_
    rintro ⟨-, heq⟩
    rw [heq]
    exact ⟨hm, hrest, rfl, harmed.imp (armedAt_qInsert_other hf) fun h => h.resolve_left hown⟩
  | otherNow f hf arg =>
    rw [afterCommand_runNow hm]
    exact .inl ⟨hm, hrest, rfl, harmed.imp (armedAt_qInsert_other hf) fun h => h.resolve_left nofun⟩

/-- A script of such commands, the event's own SCHEDULE among them, leaves the event pending one period after the counter,
which stays, unless some sum does not fit. -/
theorem exists_rearmed {e : Event} {period arg : U64} {body : Script} {s : State} (hm : s.mode = .handler)
    (hbody : ∀ i ∈ body, RearmCommand e period i) (hown : .schedule e.word period ∈ body) :
    ∃ t, runHandler s (Script.requests (body ++ [.done arg])) = some t ∧ RearmedOrOverflowed e period s t := by
  obtain ⟨t, hrun, hout⟩ := runHandler_returns_or_faults (F := (· = .dueOverflow)) arg
    (rearming_afterCommand e period s.cycle) hm ⟨hbody, rfl, .inr hown⟩
  refine ⟨t, hrun, hout.imp_left ?_⟩
  rintro ⟨u, ⟨-, hcycle, harmed⟩, rfl⟩
  exact ⟨rfl, hcycle, harmed.resolve_right List.not_mem_nil⟩

/-! The contract's rows for them. -/

/-- The contract of a script that does not abort: it is well ended, each command before its end is one that the row names,
and each that the row asks for is there (R151, R170). -/
theorem completed_of_handlerContract {p : Periods} {c : Situation} {e : Event} {script : Script}
    (h : handlerContract p c e script = true) (hab : aborts script = false) :
    wellEnded script = true ∧ (∀ i ∈ script.dropLast, mayIssue p c e i = true) ∧
      ∀ test ∈ onceEach p c e, ∃ i ∈ script, test i = true := by
  simp only [handlerContract, hab, Bool.and_eq_true, List.all_eq_true, Bool.false_eq_true, if_false] at h
  obtain ⟨⟨⟨⟨hend, hmay⟩, -⟩, -⟩, honce⟩ := h
  refine ⟨hend, hmay, fun test htest => List.countP_pos_iff.mp ?_⟩
  rw [beq_iff_eq.mp (honce test htest)]
  exact Nat.one_pos

/-- The heartbeat's handler does not abort (R161). -/
theorem aborts_generateAudioSample {p : Periods} {c : Situation} {script : Script}
    (h : handlerContract p c .generateAudioSample script = true) : aborts script = false := by
  by_contra hab
  simp [handlerContract, hab, mayAbort] at h

/-- A script that the contract allows, and whose row names only commands that re-arm, the event's own SCHEDULE among what
it asks for, leaves the event re-armed. -/
theorem exists_rearmed_of_contract {p : Periods} {c : Situation} {e : Event} {script : Script} {period : U64}
    {s : State} (hcontract : handlerContract p c e script = true) (hab : aborts script = false) (hm : s.mode = .handler)
    (hmay : ∀ i, mayIssue p c e i = true → RearmCommand e period i)
    (hown : schedulesIn e (fun d => d == period) ∈ onceEach p c e) :
    ∃ t, runHandler s script.requests = some t ∧ RearmedOrOverflowed e period s t := by
  obtain ⟨hend, hissued, hasked⟩ := completed_of_handlerContract hcontract hab
  obtain ⟨body, arg, rfl, -⟩ := exists_body_of_wellEnded hend hab
  rw [List.dropLast_concat] at hissued
  obtain ⟨i, hi, htest⟩ := hasked _ hown
  obtain ⟨d, rfl, hd⟩ := schedulesIn_iff.mp htest
  obtain rfl : d = period := beq_iff_eq.mp hd
  have hbody : .schedule e.word d ∈ body := by simpa using hi
  exact exists_rearmed hm (fun i hi => hmay i (hissued i hi)) hbody

/-- The heartbeat's handler issues its own SCHEDULE alone (R161). -/
theorem rearmCommand_generateAudioSample {p : Periods} {c : Situation} {i : Instr}
    (h : mayIssue p c .generateAudioSample i = true) : RearmCommand .generateAudioSample p.sample i := by
  have hself : schedulesIn .generateAudioSample (fun d => d == p.sample) i = true := by
    simpa [mayIssue, onceEach, onceAtMost, freely] using h
  obtain ⟨d, rfl, hd⟩ := schedulesIn_iff.mp hself
  obtain rfl := beq_iff_eq.mp hd
  exact .own

/-- A command that a row's optional line allows passes that line's test. -/
theorem test_of_any_optional {P : Prop} [Decidable P] {test : Instr → Bool} {i : Instr}
    (h : ((if P then [test] else []).any fun test => test i) = true) : test i = true := by
  split at h
  · simpa using h
  · cases h

/-- The line's handler issues its own SCHEDULE, makes VBlank due, or schedules HBlank (R156, R157). -/
theorem rearmCommand_startNextLine {p : Periods} {c : Situation} {i : Instr}
    (h : mayIssue p c .startNextLine i = true) : RearmCommand .startNextLine p.line i := by
  simp only [mayIssue, onceEach, onceAtMost, freely, List.any_append, List.any_nil, List.any_cons, Bool.or_false,
    Bool.or_eq_true] at h
  rcases h with (hself | hvBlank) | hhBlank
  · obtain ⟨d, rfl, hd⟩ := schedulesIn_iff.mp hself
    obtain rfl := beq_iff_eq.mp hd
    exact .own
  · rcases makesDue_iff.mp (test_of_any_optional hvBlank) with rfl | ⟨arg, rfl⟩
    · exact .other .vBlank (by decide) 0
    · exact .otherNow .vBlank (by decide) arg
  · obtain ⟨d, rfl, -⟩ := schedulesIn_iff.mp (test_of_any_optional hhBlank)
    exact .other .hBlank (by decide) d

/-- Settles O50: both rows name only commands that re-arm, and ask for the event's own SCHEDULE. -/
theorem contractRearmsPerpetualEvents : Obligations.ContractRearmsPerpetualEvents := by
  intro p c e script period s he hcontract hm
  rcases he with ⟨rfl, rfl⟩ | ⟨rfl, rfl, hab⟩
  · exact exists_rearmed_of_contract hcontract (aborts_generateAudioSample hcontract) hm
      (fun _ => rearmCommand_generateAudioSample) (List.mem_cons_self ..)
  · exact exists_rearmed_of_contract hcontract hab hm (fun _ => rearmCommand_startNextLine) (List.mem_cons_self ..)

/-! The audio client's delay. -/

/-- Settles O52: the negation of a 16-bit word that is not 0 is `2 ^ 16` less the word, and its zero extension keeps it. -/
theorem audioDelayNegatesReload : Obligations.AudioDelayNegatesReload := by
  refine ⟨rfl, fun r hr => ⟨(-r).setWidth 64, if_neg hr, ?_⟩⟩
  have hpos : 0 < r.toNat := Nat.pos_of_ne_zero fun h => hr (BitVec.eq_of_toNat_eq h)
  have hlt : r.toNat < 2 ^ 16 := r.isLt
  have hneg : ((-r).setWidth 64).toNat = 2 ^ 16 - r.toNat := by
    rw [BitVec.toNat_setWidth_of_le (by decide), BitVec.toNat_neg, Nat.mod_eq_of_lt (by omega)]
  omega

end Sys2Proof.ClientContracts
end

section
/-! The block's moves when no command is accepted (spec/30_encoding.md R81; spec/60_exceptions.md R189;
spec/70_reset_and_hazards.md R208, R232): the arbiter moves in CHECK, and FAULT is left by reset alone. -/

namespace Sys2Proof.OwnMoves

open Sys2Proof.Machine Sys2Proof.Laws Sys2Proof.CommandPort

/-- In CHECK the block's own move is one ARBITRATE (R129). -/
theorem ownMove_of_check {s : State} (hm : s.mode = .check) : s.ownMove = s.arbitrate := by
  simp only [State.ownMove, hm]

/-- In every other mode the block waits (R208, R232). -/
theorem ownMove_of_ne_check {s : State} (hm : s.mode ≠ .check) : s.ownMove = s := by
  cases h : s.mode with
  | check => exact absurd h hm
  | idle | handler | fault => simp only [State.ownMove, h]

/-- With an empty port a step is the block's own move (assumption 2). -/
theorem step_of_nothing {s : State} (hp : s.port = []) : step s = .next s.ownMove := by
  simp only [step, hp]

/-- A transaction without a command is the block's own move too (assumption 2). -/
theorem step_of_quiet {s : State} {rest : List PortItem} (hp : s.port = .quiet :: rest) :
    step s = .next ({ s with port := rest } : State).ownMove := by
  simp only [step, hp, State.transact]

/-- Settles O7: either way the step is the block's own move, which is one ARBITRATE in CHECK and nothing elsewhere. -/
theorem blockMovesByItselfOnlyInCheck : Obligations.BlockMovesByItselfOnlyInCheck := by
  refine fun s => ⟨fun hp => ?_, fun rest hp => ?_⟩
  · rw [step_of_nothing hp]
    exact ⟨fun hm => by rw [ownMove_of_ne_check hm], fun hm => by rw [ownMove_of_check hm]⟩
  · rw [step_of_quiet hp]
    refine ⟨fun hm => ?_, fun hm => ?_⟩
    · rw [ownMove_of_ne_check (s := { s with port := rest }) hm]
    · rw [ownMove_of_check (s := { s with port := rest }) hm, arbitrate_with_port]

/-- Settles O19: commands are held, nothing presented is nothing done, and a presented command is discarded. -/
theorem faultModeDiscards : Obligations.FaultModeDiscards := by
  intro s hm
  have hne : s.mode ≠ .check := by simp [hm]
  obtain ⟨hnothing, hquiet⟩ := blockMovesByItselfOnlyInCheck s
  refine ⟨exec_of_held (.inr hm), fun hp => (hnothing hp).1 hne, fun item rest hp hitem => ?_⟩
  cases item with
  | reset => exact absurd rfl hitem
  | quiet => exact (hquiet rest hp).1 hne
  | command r => exact ((portReadinessRule s).2 r rest hp).2 hm

end Sys2Proof.OwnMoves
end

section
/-! What an accepted command is tested for, and in which order (spec/30_encoding.md R81; spec/60_exceptions.md R184 to
R187, R193): one lemma for each test that a command word can fail, with the record of its fault. -/

namespace Sys2Proof.AcceptanceTests

open Sys2Proof.Machine Sys2Proof.Laws Sys2Proof.CommandPort Sys2Proof.CommandEncoding Sys2Proof.ClockAndDone

/-! The fields of a command word, by the kind of command. -/

/-- The OP values of R79. -/
theorem opCode_range (i : Instr) : 1 ≤ i.opCode.toNat ∧ i.opCode.toNat ≤ 6 := by
  cases i <;> simp [Instr.opCode]

/-- The commands that take an event are those with OP 1 to 3 (R79). -/
theorem takesEvent_iff {i : Instr} : TakesEvent i ↔ i.opCode.toNat ≤ 3 := by
  cases i <;> simp [TakesEvent, Instr.opCode]

/-- The commands that end a handler are those with OP 5 and 6 (R79, R151). -/
theorem endsHandler_iff {i : Instr} : endsHandler i = true ↔ 5 ≤ i.opCode.toNat := by
  cases i <;> simp [endsHandler, Instr.opCode]

/-- A command that takes no event has a zero EV field (R79). -/
theorem evOperand_of_no_event {i : Instr} (h : ¬ TakesEvent i) : i.evOperand = 0 := by
  cases i with
  | schedule | cancel | runNow => exact absurd trivial h
  | advance | done | abort => rfl

/-- A command with OP 4 or above has a zero EV field (R79). -/
theorem command_passes_ev_test (i : Instr) : ¬ (4 ≤ i.opCode.toNat ∧ i.evOperand ≠ 0) := by
  rintro ⟨hop, hev⟩
  exact hev (evOperand_of_no_event (mt takesEvent_iff.mp (Nat.not_le.mpr hop)))

/-- A command is well formed when its event word, if it takes one, is legal (R80). -/
theorem wellFormed_of_legal {i : Instr} (h : TakesEvent i → EventWord.legal i.evOperand = true) :
    i.wellFormed = true := by
  cases i with
  | schedule | cancel | runNow => exact h trivial
  | advance | done | abort => rfl

/-! The bits of a command's word (R77). -/

theorem opBits_cmdWord (i : Instr) : i.cmdWord.extractLsb' 28 4 = i.opCode :=
  opField_cmdOfFields i.opCode 0 i.evOperand

theorem rsvBits_cmdWord (i : Instr) : i.cmdWord.extractLsb' 16 12 = 0 :=
  rsvField_cmdOfFields i.opCode 0 i.evOperand

theorem evBits_cmdWord (i : Instr) : i.cmdWord.extractLsb' 0 16 = i.evOperand :=
  evField_cmdOfFields i.opCode 0 i.evOperand

/-- A command's word has a zero RSV field and an OP that is defined (R79, R81 step 2). -/
theorem command_passes_rsv_op_test (i : Instr) :
    ¬ ((encode i).cmd.extractLsb' 16 12 ≠ 0 ∨ i.opCode.toNat = 0 ∨ 7 ≤ i.opCode.toNat) := by
  have hrange := opCode_range i
  rintro (hrsv | hop)
  · exact hrsv (rsvBits_cmdWord i)
  · omega

/-- An undecodable word fails in one of R81's three ways: its RSV field, its OP, or an EV field that should be zero. -/
theorem fields_of_undecodable {r : Request} {why : DecodeError} (h : decode r = .error why) :
    (CmdWord.rsvField r.cmd ≠ 0 ∨ (CmdWord.opField r.cmd).toNat = 0 ∨ 7 ≤ (CmdWord.opField r.cmd).toNat) ∨
      (4 ≤ (CmdWord.opField r.cmd).toNat ∧ CmdWord.evField r.cmd ≠ 0) := by
  have hev {i : Instr} (h : ifNoEvent (CmdWord.evField r.cmd) i = .error why) : CmdWord.evField r.cmd ≠ 0 := by
    intro hzero
    rw [ifNoEvent, if_pos hzero] at h
    cases h
  unfold decode at h
  split at h
  case isFalse hrsv => exact .inl (.inl hrsv)
  case isTrue =>
    split at h
    case h_1 | h_2 | h_3 => cases h
    case h_4 hop | h_5 hop | h_6 hop => exact .inr ⟨by omega, hev h⟩
    case h_7 h1 h2 h3 h4 h5 h6 =>
      simp only [imp_false] at h1 h2 h3 h4 h5 h6
      exact .inl (.inr (by omega))

/-! The tests. -/

/-- In IDLE and HANDLER an undecodable word raises ILLEGAL_COMMAND with the word recorded (R185). -/
theorem acceptRequest_of_undecodable {s : State} {r : Request} {why : DecodeError} (ha : s.Accepts)
    (h : decode r = .error why) :
    s.acceptRequest r = .next (s.raise .illegalCommand none (CmdWord.recorded r.cmd)) := by
  simp only [State.acceptRequest, h, State.illegalCommand, accepting_of_accepts ha]

/-- In IDLE a command that ends a handler raises PROTOCOL with its word recorded (R187). -/
theorem exec_of_protocol {s : State} {i : Instr} (hm : s.mode = .idle) (hi : endsHandler i = true) :
    exec i s = .next (s.raise .protocol none (CmdWord.recorded i.cmdWord)) := by
  cases i with
  | done | abort => simp only [exec, execDone, execAbort, accepting_of_idle hm, State.handshake, hm]
  | schedule | cancel | runNow | advance => cases hi

/-- In HANDLER an ABORT raises HANDLER_ABORT with the word in `cur` and its operand recorded (R184). -/
theorem exec_abort_of_handler {s : State} {e : Event} (hm : s.mode = .handler) (he : s.cur = some e) (info : U64) :
    exec (.abort info) s = .next (s.raise .handlerAbort (some e.word) info) := by
  simp only [exec, execAbort, accepting_of_handler hm, State.handshake, hm, State.curWord, he, Option.map_some]

/-- An illegal event word is recorded with the operand, and nothing else changes (R186). -/
theorem exists_faultedWith_illegalEvent {s : State} (ha : s.Accepts) {i : Instr} (ht : TakesEvent i)
    (hl : EventWord.legal i.evOperand = false) :
    ∃ t, exec i s = .next t ∧ State.FaultedWith .illegalEvent (some i.evOperand) i.argOperand s t :=
  ⟨_, exec_of_illegal_event ha ht hl, raise_faultedWith s _ _ _⟩

/-- Settles O17: ABORT is the fault entry of HANDLER_ABORT in HANDLER and of PROTOCOL in IDLE. -/
theorem abortRecordsHandlerFault : Obligations.AbortRecordsHandlerFault := by
  refine fun s info => ⟨decode_of_no_event (i := .abort info) (op := 6) rfl rfl rfl, fun e hm he => ?_, fun hm => ?_⟩
  · exact ⟨_, exec_abort_of_handler hm he info, raise_faultedWith s .handlerAbort (some e.word) info⟩
  · refine ⟨_, exec_of_protocol hm rfl, ?_⟩
    rw [recorded_abort]
    exact raise_faultedWith s .protocol none 0x60000000

/-- Settles O18: the three commands are those that take an event. -/
theorem illegalEventFaults : Obligations.IllegalEventFaults := by
  intro s ev arg ha hl
  simp only [List.forall_mem_cons]
  exact ⟨exists_faultedWith_illegalEvent (i := .schedule ev arg) ha trivial hl,
    exists_faultedWith_illegalEvent (i := .cancel ev arg) ha trivial hl,
    exists_faultedWith_illegalEvent (i := .runNow ev arg) ha trivial hl, nofun⟩

/-- Settles O9: an undecodable word fails the first or the third test, and a command's word fails neither, so that for a
command only its event word and the mode are left to test. -/
theorem acceptanceFollowsCheckOrder : Obligations.AcceptanceFollowsCheckOrder := by
  refine fun s r => ⟨fun hm => acceptRequest_of_fault hm r, fun ha => ?_⟩
  intro op ev
  cases hd : decode r with
  | error why =>
    have hfault : ∃ t, s.acceptRequest r = .next t ∧
        State.FaultedWith .illegalCommand none (CmdWord.recorded r.cmd) s t :=
      ⟨_, acceptRequest_of_undecodable ha hd, raise_faultedWith s _ _ _⟩
    split
    · exact hfault
    · next hopcode =>
      obtain ⟨hop, hev⟩ : 4 ≤ op ∧ ev ≠ 0 := (fields_of_undecodable hd).resolve_left hopcode
      rw [if_neg fun h => by omega, if_pos ⟨hop, hev⟩]
      exact hfault
  | ok i =>
    obtain rfl := encode_of_decode hd
    have hexec : s.acceptRequest (encode i) = exec i s := by simp only [State.acceptRequest, hd]
    have hop : op = i.opCode.toNat := congrArg BitVec.toNat (opBits_cmdWord i)
    have hev : ev = i.evOperand := evBits_cmdWord i
    rw [hexec, hop, hev, if_neg (command_passes_rsv_op_test i)]
    split
    · next h => exact exists_faultedWith_illegalEvent ha (takesEvent_iff.mpr h.1) h.2
    · next hlegal =>
      rw [if_neg (command_passes_ev_test i)]
      split
      · next h => exact ⟨_, exec_of_protocol h.2 (endsHandler_iff.mpr h.1), raise_faultedWith s _ _ _⟩
      · refine ⟨i, rfl, wellFormed_of_legal fun ht => ?_, rfl⟩
        rw [← Bool.not_eq_false]
        exact fun hl => hlegal ⟨takesEvent_iff.mp ht, hl⟩

end Sys2Proof.AcceptanceTests
end

section
/-! The causes of an entry to FAULT (spec/60_exceptions.md R181 to R191), read off what a step can do. -/

namespace Sys2Proof.FaultCauses

open Sys2Proof.Machine Sys2Proof.Laws Sys2Proof.CommandEncoding Sys2Proof.ClockAndDone Sys2Proof.ArmedPasses
open Sys2Proof.AcceptanceTests

/-- Outside CHECK and FAULT a command is accepted (R33, R202). -/
theorem accepts_of_ne {s : State} (hc : s.mode ≠ .check) (hf : s.mode ≠ .fault) : s.Accepts := by
  cases h : s.mode with
  | idle => exact .inl h
  | handler => exact .inr h
  | check => exact absurd h hc
  | fault => exact absurd h hf

/-- An ARBITRATE that faults found the store empty, and records the counter (R183). -/
theorem queueEmpty_of_arbitrateEffect {s t : State} (he : ArbitrateEffect s t) (ht : t.mode = .fault) :
    (∀ i, s.slot i = none) ∧ t.fcode = .queueEmpty ∧ t.fevValid = false ∧ t.farg = s.cycle := by
  cases he with
  | empty h => exact ⟨qEmpty_iff.mp h, rfl, rfl, rfl⟩
  | dispatched | ended => cases ht

/-- A command that ends a handler is a DONE or an ABORT (R151). -/
theorem eq_done_or_abort {i : Instr} (h : endsHandler i = true) :
    i = .done i.argOperand ∨ i = .abort i.argOperand := by
  cases i with
  | done => exact .inl rfl
  | abort => exact .inr rfl
  | schedule | cancel | runNow | advance => cases h

/-- Settles O32: one case for each effect of a step that is a fault entry, in the order of R181's table. -/
theorem everyFaultHasItsCause : Obligations.EveryFaultHasItsCause := by
  intro s t hstep hs ht
  cases effect_of_step hstep with
  | reset => cases ht
  | arbitrated _ _ hm => exact .inl ⟨hm, queueEmpty_of_arbitrateEffect (t := s.arbitrate) (arbitrate_effect rfl) ht⟩
  | waited | discarded => exact absurd ht hs
  | illegal r rest why hp ha hd => exact .inr ⟨r, rest, hp, ha, .inr (.inl ⟨⟨why, hd⟩, rfl, rfl, rfl⟩)⟩
  | command r rest i u hp hm hd he =>
    refine .inr ⟨r, rest, hp, accepts_of_ne hm hs, ?_⟩
    obtain rfl := encode_of_decode hd
    cases he with
    | aborted info hm =>
      refine .inl ⟨hm, info, hd, rfl, Option.isSome_map, fun e he => ?_, rfl⟩
      show s.curWord.getD 0 = e.word
      rw [State.curWord, he, Option.map_some, Option.getD_some]
    | illegalEvent _ _ htakes hl =>
      exact .inr (.inr (.inl ⟨i, hd, wellFormed_of_illegal htakes hl, rfl, rfl, (evBits_cmdWord i).symm, rfl⟩))
    | protocol _ hm hends =>
      have hcommand : decode (encode i) = .ok (.done i.argOperand) ∨ decode (encode i) = .ok (.abort i.argOperand) :=
        (eq_done_or_abort hends).imp (hd.trans <| congrArg _ ·) (hd.trans <| congrArg _ ·)
      exact .inr (.inr (.inr (.inl ⟨hm, hcommand, rfl, rfl, rfl⟩)))
    | cycleOverflow n _ hover =>
      refine .inr (.inr (.inr (.inr (.inl ⟨n, hd, hover, rfl, fun hm => ?_, fun e hm he => ?_, rfl⟩))))
      · exact congrArg Option.isSome (runningWord_of_idle hm)
      · have hword := runningWord_of_handler hm he
        exact ⟨congrArg Option.isSome hword, congrArg (Option.getD · 0) hword⟩
    | dueOverflow e d _ hover => exact .inr (.inr (.inr (.inr (.inr ⟨e, d, hd, hover, rfl, rfl, rfl, rfl⟩))))
    | held | inserted | removed | insertedNow => exact absurd ht hs
    | passStarted | clockMoved | returned => cases ht

end Sys2Proof.FaultCauses
end

section
/-! Drain passes that end in FAULT (spec/60_exceptions.md R188, R189, R200): what is kept while a handler's requests run,
whatever they are, and the turn in which the pass faulted. -/

namespace Sys2Proof.FaultedPasses

open Sys2Proof.Machine Sys2Proof.Laws Sys2Proof.PassSteps

/-- The codes of the faults that a request in HANDLER can raise: neither the arbiter's QUEUE_EMPTY nor IDLE's PROTOCOL
(R183, R187). -/
abbrev HandlerFault (f : FaultCode) : Prop := f ≠ .queueEmpty ∧ f ≠ .protocol ∧ f ≠ .none

/-- What holds of the block from the dispatch of `e` to the end of its handler: `cur` is `e` until the handler returns,
also when it faults (R135, R200). -/
abbrev Handling (e : Event) (s : State) : Prop :=
  s.mode = .check ∨ (s.cur = some e ∧ (s.mode = .handler ∨ (s.mode = .fault ∧ HandlerFault s.fcode)))

/-- A command that faults in HANDLER raises one of these codes. -/
theorem handlerFault_of_effect {s t : State} {i : Instr} (he : Effect s i t) (hm : s.mode = .handler)
    (ht : t.mode = .fault) : HandlerFault t.fcode := by
  cases he with
  | illegalEvent | dueOverflow | cycleOverflow | aborted => exact ⟨nofun, nofun, nofun⟩
  | protocol _ hi => exact absurd (hi.symm.trans hm) nofun
  | held | inserted | removed | insertedNow => exact absurd (hm.symm.trans ht) nofun
  | passStarted | clockMoved | returned => cases ht

/-- A request in the handler of `e`, decodable or not, leaves the block handling `e`. -/
theorem handling_afterRequest {e : Event} {s : State} (hm : s.mode = .handler) (hcur : s.cur = some e) (r : Request) :
    Handling e (s.afterRequest r) := by
  generalize h : s.afterRequest r = t
  cases effect_of_afterRequest h with
  | command i _ _ he =>
    rcases cur_of_effect_in_handler he hm with ⟨hkept, hmode⟩ | ⟨-, hcheck, -⟩
    · exact .inr ⟨hkept.trans hcur, hmode.imp_right fun hf => ⟨hf, handlerFault_of_effect he hm hf⟩⟩
    · exact .inl hcheck
  | held _ _ hheld => simp [hm] at hheld
  | illegal => exact .inr ⟨hcur, .inr ⟨rfl, nofun, nofun, nofun⟩⟩

/-- A handler's requests end with the block handling its event. -/
theorem handling_of_runHandler {e : Event} {requests : List Request} : ∀ {s t : State}, Handling e s →
    runHandler s requests = some t → Handling e t := by
  induction requests with
  | nil =>
    intro s t hs h
    unfold runHandler at h
    cases hm : s.mode <;> rw [hm] at h <;> cases h <;> exact hs
  | cons r rest ih =>
    intro s t hs h
    unfold runHandler at h
    cases hm : s.mode <;> rw [hm] at h
    case idle | check => cases h
    case fault => cases h; exact hs
    case handler =>
      have hcur : s.cur = some e := (hs.resolve_left (by simp [hm])).1
      exact ih (handling_afterRequest hm hcur r) h

/-- A handler that the arbiter started and that ends in FAULT leaves its event in `cur` (R200). -/
theorem faulted_turn {s t : State} {h : SlotIndex} {requests : List Request}
    (hr : runHandler (s.dispatch h) requests = some t) (ht : t.mode = .fault) :
    HandlerFault t.fcode ∧ t.cur = some (Event.ofOrd h) := by
  have hend : Handling (Event.ofOrd h) t := handling_of_runHandler (.inr ⟨rfl, .inl rfl⟩) hr
  rcases hend with hcheck | ⟨hcur, hhandler | ⟨-, hcode⟩⟩
  · exact absurd (hcheck.symm.trans ht) nofun
  · exact absurd (hhandler.symm.trans ht) nofun
  · exact ⟨hcode, hcur⟩

/-- A dispatch and the requests of the dispatched event's handler are a turn. -/
theorem handlerTurn_of_dispatch {H : Handler} {s t : State} {h : SlotIndex} (ha : s.arbitrate = s.dispatch h)
    (hr : runHandler (s.dispatch h) (H (Event.ofOrd h) (s.dispatch h)) = some t) :
    HandlerTurn H s (Event.ofOrd h) t := by
  rw [HandlerTurn, ha]
  exact ⟨rfl, rfl, hr⟩

/-- Settles O49: by induction on the fuel; the pass faults at an ARBITRATE of an empty store or in the turn at hand, or
goes on after it. -/
theorem passFaultedInHandlerKeepsCur : Obligations.PassFaultedInHandlerKeepsCur := by
  intro H fuel
  induction fuel with
  | zero => intro s t hd; cases hd
  | succ fuel ih =>
    intro s t hd ht
    cases drain_effect hd with
    | empty he => exact .inl ⟨rfl, he⟩
    | ended => cases ht
    | faulted h _ _ ha _ _ hr =>
      obtain ⟨⟨hqueue, hprotocol, hnone⟩, hcur⟩ := faulted_turn hr ht
      exact .inr ⟨hqueue, hprotocol, hnone, s, _, .here s, handlerTurn_of_dispatch ha hr, hcur⟩
    | turned h _ u _ ha _ _ hr hu hrest =>
      refine (ih u t hrest ht).imp_right ?_
      rintro ⟨hqueue, hprotocol, hnone, v, e, hreach, hturn⟩
      exact ⟨hqueue, hprotocol, hnone, v, e, .turn s u v _ (handlerTurn_of_dispatch ha hr) hu hreach, hturn⟩

end Sys2Proof.FaultedPasses
end

section
/-! The reset input and the boot sequence (spec/70_reset_and_hazards.md R220, R223 to R225). -/

namespace Sys2Proof.ResetAndBoot

open Sys2Proof.Machine Sys2Proof.Laws Sys2Proof.ByteForm Sys2Proof.QueueCommands

/-- An assertion of reset comes before everything else and resets the block (R36, R220). -/
theorem step_of_reset {s : State} {rest : List PortItem} (hp : s.port = .reset :: rest) :
    step s = .next ({ s with port := rest } : State).applyReset := by
  simp only [step, hp, State.transact]

/-- What is pending after an insertion (R11). -/
theorem qLookup_qInsert (s : State) (e f : Event) (d : U64) :
    (s.qInsert e d).qLookup f = if f = e then some d else s.qLookup f := by
  have hiff : f.ord = e.ord ↔ f = e := ⟨ord_injective, congrArg Event.ord⟩
  simp only [State.qLookup, slot_qInsert, hiff]

/-- After reset nothing is pending (R41). -/
theorem qLookup_reset (e : Event) : State.reset.qLookup e = none := slot_reset e.ord

/-- At counter 0 a delay is the due cycle, and the sum always fits (R101). -/
theorem exec_schedule_at_zero {s : State} (ha : s.Accepts) (hc : s.cycle = 0) (e : Event) (d : U64) :
    exec (.schedule e.word d) s = .next (s.qInsert e d) := by
  have hfit : s.cycle.toNat + d.toNat < 2 ^ 64 := by simpa [hc] using d.isLt
  have hsum : s.cycle + d = d := by rw [hc, zero_add]
  rw [exec_schedule_of_fits ha e hfit, hsum]

/-- A SCHEDULE by the owner at counter 0 inserts its event at its delay and starts no pass (R101, R224). -/
theorem ownerRun_schedule_at_zero {s : State} (hm : s.mode = .idle) (hc : s.cycle = 0) (H : Handler) (fuel : Nat)
    (e : Event) (d : U64) (rest : List Request) :
    ownerRun H fuel s (encode (.schedule e.word d) :: rest) = ownerRun H fuel (s.qInsert e d) rest := by
  have hafter : s.afterRequest (encode (.schedule e.word d)) = s.qInsert e d := by
    rw [afterRequest_of_decode (decode_encode _)]
    exact Host.Outcome.next.inj ((exec_afterCommand _ s).symm.trans (exec_schedule_at_zero (.inl hm) hc e d))
  have hidle : (s.qInsert e d).mode = .idle := hm
  simp only [ownerRun, ownerCommand, hm, hafter, State.afterOwner, hidle, Option.bind_some]

/-- The store and registers at the end of the boot sequence (R224). -/
def booted (p : Periods) (arming : HBlankArming) : State :=
  let armed := (State.reset.qInsert .generateAudioSample p.bootSample).qInsert .startNextLine p.bootLine
  match arming with
  | .byStartNextLine => armed
  | .byItself => armed.qInsert .hBlank p.bootHBlank

/-- The boot sequence runs from reset to that state: each of its SCHEDULEs is an insertion at counter 0 (R224). -/
theorem ownerRun_bootSequence (p : Periods) (arming : HBlankArming) (H : Handler) (fuel : Nat) :
    ownerRun H fuel State.reset (bootSequence p arming).requests = some (booted p arming) := by
  have hprefix (rest : List Request) :
      ownerRun H fuel State.reset (encode (.schedule Event.generateAudioSample.word p.bootSample) ::
          encode (.schedule Event.startNextLine.word p.bootLine) :: rest) =
        ownerRun H fuel (booted p .byStartNextLine) rest := by
    rw [ownerRun_schedule_at_zero rfl rfl, ownerRun_schedule_at_zero rfl rfl, booted]
  cases arming with
  | byStartNextLine => exact hprefix []
  | byItself => exact (hprefix _).trans (ownerRun_schedule_at_zero rfl rfl H fuel .hBlank p.bootHBlank [])

/-- What is pending once booted (R224). -/
theorem qLookup_booted (p : Periods) (arming : HBlankArming) (e : Event) :
    (booted p arming).qLookup e =
      if e = .hBlank ∧ arming = .byItself then some p.bootHBlank
      else if e = .startNextLine then some p.bootLine
      else if e = .generateAudioSample then some p.bootSample else none := by
  cases arming <;> simp [booted, qLookup_qInsert, qLookup_reset]

/-- The boot sequence moves neither the mode nor the counter, and raises no fault (R224). -/
theorem booted_registers (p : Periods) (arming : HBlankArming) :
    (booted p arming).mode = .idle ∧ (booted p arming).cycle = 0 ∧ (booted p arming).fcode = .none := by
  cases arming <;> exact ⟨rfl, rfl, rfl⟩

/-- Settles O51: the run ends in `booted`, in which exactly the boot SCHEDULEs' events are pending. -/
theorem bootArmsPerpetualEvents : Obligations.BootArmsPerpetualEvents := by
  intro p arming H fuel
  obtain ⟨hmode, hcycle, hfcode⟩ := booted_registers p arming
  refine ⟨booted p arming, ownerRun_bootSequence p arming H fuel, hmode, hcycle, hfcode, ?_, ?_, ?_,
    fun e hsample hline hblank => ?_⟩
  · simp [qLookup_booted]
  · simp [qLookup_booted]
  · simp [qLookup_booted]
  · simp [qLookup_booted, hsample, hline, hblank]

/-- Settles O2: the step is `applyReset` in every mode, which keeps nothing but the rest of the port. -/
theorem resetInputRestoresReset : Obligations.ResetInputRestoresReset :=
  fun s rest hp => ⟨({ s with port := rest } : State).applyReset, step_of_reset hp, applyReset_cycle _, slot_applyReset _,
    applyReset_mode _, applyReset_cur _, applyReset_fcode _, applyReset_fevValid _, applyReset_fev _, applyReset_farg _,
    applyReset_port _⟩

end Sys2Proof.ResetAndBoot
end
